-- ==== Sys2Proof/Word.lean ====
section
/-! DEFINITION. The word types of the stepper phase sequencer and the direction enum. -/

namespace Sys2Proof

/-- One byte of the transport, of `LBUF` and of a response text (20_memory R35). -/
abbrev Byte := BitVec 8

/-- A 32-bit operand or register: `COUNT_BITS = DELAY_BITS = 32` (00_scope R8). -/
abbrev Word32 := BitVec 32

/-- The command word of the port (30_encoding R47, R49). -/
abbrev CmdWord := BitVec 34

/-- One row of the phase table and the value of `GPIO`: bit `p` is the level of pin `p` (00_scope R10). -/
abbrev Row := BitVec 4

/-- The value of `PHASE`: an index into the phase table (10_state R15). -/
abbrev Index := BitVec 3

/-- The direction of a run (10_state R16). -/
inductive Dir where
  | backward
  | forward
  deriving DecidableEq, Repr

/-- `not dir` (40_stepping R76). -/
def Dir.flip : Dir → Dir
  | .backward => .forward
  | .forward => .backward

end Sys2Proof
end

