-- ==== Sys2Proof/Config.lean ====
section
/-! DEFINITION. The parameters of the hardware (00_scope R8) and the values the spec leaves open. -/

namespace Sys2Proof.Config

/-- `LINE_MAX`, the capacity of the line buffer (00_scope R8). -/
def lineMax : Nat := 200

/-- `DELAY_RESET`, 5 ms in microseconds (00_scope R8). -/
def delayReset : Word32 := 5000

/-- The largest positive 32-bit operand, `2^31 - 1` (00_scope R8, 40_stepping R76). -/
def maxCount : Int := 2147483647

/-- The smallest 32-bit operand, `-2^31` (30_encoding R64). -/
def minCount : Int := -2147483648

end Sys2Proof.Config

namespace Sys2Proof

/-- The phase table: 8 rows of 4 levels (10_state R24, 20_memory R32). -/
abbrev PhaseTable := Vector Row 8

/-- The number of levels that are on in a row. -/
def Row.onCount (r : Row) : Nat :=
  (r.getLsbD 0).toNat + (r.getLsbD 1).toNat + (r.getLsbD 2).toNat + (r.getLsbD 3).toNat

/-- One level on, or two adjacent ones, pins 3 and 0 counted as adjacent (20_memory R33 (b)). -/
def Row.adjacentPairs (r : Row) : Bool :=
  r.onCount == 1 || r == 0b0011 || r == 0b0110 || r == 0b1100 || r == 0b1001

/-- What 20_memory R33 asks of rows `before`, `row`, `after` standing in this order: (b) one or two adjacent
coils, (c) single and dual activation alternate, (d) a two-on row lights the coils of its two neighbours. DESIGN CHOICE
(log 29), unsafe: (d) is read as "and no other", so that the two neighbours of a two-on row are different coils; the words
of R33 leave open whether they may be the same one, as in 1, 3, 1, 3, 1, 3, 1, 3. -/
def Row.fits (before row after : Row) : Bool :=
  row.adjacentPairs && row.onCount != after.onCount && (row.onCount == 1 || row == before ||| after)

/-- A table that has properties (a) to (d) of 20_memory R33, the wrap from 7 to 0 included ((d) as log 29 reads it). -/
def PhaseTable.admissible (t : PhaseTable) : Bool :=
  Row.fits t[7] t[0] t[1] && Row.fits t[0] t[1] t[2] && Row.fits t[1] t[2] t[3] && Row.fits t[2] t[3] t[4] &&
  Row.fits t[3] t[4] t[5] && Row.fits t[4] t[5] t[6] && Row.fits t[5] t[6] t[7] && Row.fits t[6] t[7] t[0]

/-- The default value of `TABLE`, the customary half-step order (20_memory R33, decision D6, passage G1).
PRESUMED (log 3), unsafe: a claim that names a row holds for this table only. -/
def PhaseTable.halfStep : PhaseTable := #v[0x1, 0x3, 0x2, 0x6, 0x4, 0xC, 0x8, 0x9]

/-- The parameters that are data of one built machine and that no operation writes (10_state R23, R24). -/
structure Params where
  /-- `SPR`, steps per revolution (10_state R23). -/
  spr : Nat
  /-- `TABLE` (10_state R24). -/
  table : PhaseTable
  deriving DecidableEq, Repr

end Sys2Proof

namespace Sys2Proof.Config

/-- The parameters of the machine that `State.reset` describes: the document's example `SPR = 4096` and the default
`TABLE`. DESIGN CHOICE (log 2), unsafe: `SPR` is open in the spec; no statement but those about reset reads this. -/
def params : Params := ⟨4096, PhaseTable.halfStep⟩

/-- `STATUS_STEP(m, d)`: the detail text of a `STEP` status line, open (30_encoding R65, U9; log 12). -/
opaque statusStep : Rat → Dir → List Byte

/-- `STATUS_SPEED(u)`: the detail text of a `SPEED` status line, open (30_encoding R65, U9; log 12). -/
opaque statusSpeed : Int → List Byte

/-- `STARTUP(SPR)`: the detail text of the startup line, open (70 R110, U9; log 12). -/
opaque startupText : Nat → List Byte

/-- Whether `writeLine` ends a line with CR LF and not with LF alone: open (30_encoding R65, U15; log 12). -/
opaque lineEndsWithCr : Bool

/-- `IND_FAIL`, the duration of the failure indication: open (00_scope R8, D23; log 12). -/
opaque indFail : Nat

/-- How much longer than one unit more than `IND_FAIL` the success indication lasts: open (00_scope R8, D23; log 12). -/
opaque indOkExtra : Nat

/-- `IND_OK`, the duration of the success indication: open but for `IND_OK > IND_FAIL` (00_scope R8, D23). -/
def indOk : Nat := indFail + indOkExtra + 1

/-- `RXCAP`, the capacity of the transport's receive buffer: open, external (00_scope R8, 10_state R30; log 9). -/
opaque rxCap : Nat

/-- Free value: whether the byte of draw `n`, sent to a full receive buffer, is kept (U6 "each excess byte may be kept
or lost"; log 9). -/
opaque keepsExcess : Nat → Bool

/-- Free value: whether the unread byte of draw `n` survives a reset; the spec is silent (log 10). -/
opaque survivesReset : Nat → Bool

end Sys2Proof.Config
end

