-- ==== Sys2Proof/Syntax.lean ====
section
/-! DEFINITION. The operations of the sequencer and of its front end, one constructor per row of
spec/opcode_table.json, and the forms in which they are presented. -/

namespace Sys2Proof

/-- The rows of the opcode table. Port operations carry their operands as the command word has them; wire commands
carry the argument string that the dispatch hands to the handler (30_encoding R57, R59). -/
inductive Instr where
  /-- `STEPCNT steps, dir` (40_stepping R71). -/
  | stepcnt (steps : Word32) (dir : Dir)
  /-- `SETDELAY us` (41_control R77). -/
  | setdelay (us : Word32)
  /-- `STEPREV revs, dir`, the pseudo-operation, with an exact rational operand (40_stepping R76). -/
  | steprev (revs : Rat) (dir : Dir)
  /-- `HEALTHCHECK` (42_wire_commands R79). -/
  | healthcheck (args : List Byte)
  /-- `PING` (42_wire_commands R80). -/
  | ping (args : List Byte)
  /-- `STEP <revolutions> <direction>` (42_wire_commands R81). -/
  | step (args : List Byte)
  /-- `SPEED <delay_us>` (42_wire_commands R82). -/
  | speed (args : List Byte)
  /-- A token that no dispatch entry matches (42_wire_commands R83). -/
  | unknown (token : List Byte) (args : List Byte)
  deriving DecidableEq, Repr

/-- What a presenter puts at the command port: a command word (30_encoding R47), or the pseudo-operation `STEPREV`,
which stands in front of the port and has no encoding (40_stepping R76; log 20). -/
inductive Request where
  | word (w : CmdWord)
  | call (revs : Rat) (dir : Dir)
  deriving DecidableEq, Repr

/-- The two ways an operation reaches the hardware: at the port, or as a completed line without its line feed
(30_encoding, the port level and the wire level). -/
inductive Presented where
  | port (r : Request)
  | line (bytes : List Byte)
  deriving DecidableEq, Repr

end Sys2Proof
end

