-- ==== Sys2Proof/Machine/State.lean ====
section
/-! DEFINITION. The state of the machine, its faults and refusals, and the state after reset. -/

namespace Sys2Proof.Machine

/-- A response line, named by what it says; its text is `Response.text` (30_encoding R65). -/
inductive Response where
  /-- `OK` -/
  | ok
  /-- `PONG` -/
  | pong
  /-- `EVENT:` and `STATUS_STEP(m, d)` -/
  | stepStatus (m : Rat) (f : Dir)
  /-- `EVENT:` and `STATUS_SPEED(u)` -/
  | speedStatus (u : Int)
  /-- `EVENT:` and `STARTUP(SPR)` -/
  | startup (spr : Nat)
  /-- the text of `StepUsage` (60_exceptions R90) -/
  | stepUsage
  /-- the text of `SpeedUsage` (60_exceptions R91) -/
  | speedUsage
  /-- the text of `UnknownCommand(token)` (60_exceptions R89) -/
  | unknownCommand (token : List Byte)
  deriving DecidableEq, Repr

/-- The two indications (42_wire_commands R84). -/
inductive Indication where
  | success
  | failure
  deriving DecidableEq, Repr

/-- What the outside sees happen, in order. A record of the model's own (log 11): the block keeps none of it
(10_state R27). -/
inductive Output where
  /-- one `GPIO` write event of `ADV`, stamped with the clock's count of ticks (20_memory R38) -/
  | pins (time : Nat) (v : Row)
  /-- one `writeLine(text)` (20_memory R42) -/
  | line (r : Response)
  /-- one indication event (42_wire_commands R84) -/
  | ind (k : Indication)
  /-- `rst` took effect: all four pins are off (70 R107, R108) -/
  | reset (time : Nat)
  deriving DecidableEq, Repr

/-- Where the front end stands. -/
inductive FrontEnd where
  /-- the block is built without a front end and is driven at the port (00_scope R5, 70 R124; log 8) -/
  | absent
  /-- after reset, the startup line is not yet sent (70 R110) -/
  | booting
  /-- the control loop polls the transport (30_encoding R53) -/
  | polling
  /-- a `STEP m f` has issued its run and waits for its end to send the status line (42_wire_commands R81, R85) -/
  | awaiting (m : Rat) (f : Dir)
  deriving DecidableEq, Repr

/-- Byte memory as pairs of address and byte, addresses strictly rising, no byte listed that an unlisted address reads
as (see `Memory.wf`). -/
abbrev Memory := List Host.Cell

/-- Why the machine stops with a fault. -/
inductive Fault where
  /-- Raised by the completion of a line when `LLEN` says more bytes than `LBUF` has: an access to an index of 200 or
  above, which does not exist (20_memory R35, R41). Safe: no state with `LLEN <= 200` raises it (log 23). -/
  | lineBufferRange
  deriving DecidableEq, Repr

/-- Why the machine gives an input no meaning. -/
inductive Refusal where
  /-- Raised by `exec` for an instruction that has no meaning in this model yet. Safe. -/
  | notModelled (mnemonic : String)
  /-- Raised by the processing of a line with a byte outside the ASCII lines (30_encoding R60, U3 "refuse the line").
  Safe (log 14). -/
  | lineNotAscii
  /-- Raised by `STEP` and `SPEED` for a numeric token of the grey zone (30_encoding R63, R64, U2 "refuse the line").
  Safe (log 15). -/
  | greyNumber
  /-- Raised by `STEP` and `SPEED` for an integer token outside 32 bits (30_encoding R64, U5 "refuse"). Safe (log 16). -/
  | integerOutOfRange
  /-- Raised by `STEPREV` and `STEP` for a total above `2^31 - 1` (40_stepping R76, U5 "refuse"). Safe (log 16). -/
  | totalOutOfRange
  /-- Raised by `SPEED` with two or more argument tokens (42_wire_commands R82, U4 "refuse the line"). Safe (log 17). -/
  | speedExtraTokens
  /-- Raised by a step in which an outside presenter drives the port of a machine whose front end is present, which "is
  not admitted" (70 R124). Safe (log 7). -/
  | secondPresenter
  deriving DecidableEq, Repr

/-- Everything the spec gives the machine, its inputs and outputs, and two counters of the model's own. -/
structure State where
  /-- `PHASE` (10_state R15) -/
  phase : Index
  /-- `DIR` (10_state R16) -/
  dir : Dir
  /-- `DELAY`, in ticks (10_state R17) -/
  delay : Word32
  /-- `REMAIN` (10_state R18) -/
  remain : Word32
  /-- `HOLD`, in ticks (10_state R19) -/
  hold : Word32
  /-- `BUSY` (10_state R20) -/
  busy : Bool
  /-- `GPIO`, bit `p` on pin `p` (10_state R21) -/
  gpio : Row
  /-- `LLEN` (10_state R26) -/
  llen : BitVec 8
  /-- `LBUF` (10_state R26, 20_memory R41) -/
  lbuf : Memory
  /-- where the front end stands (70 R110, 42_wire_commands R85) -/
  fe : FrontEnd
  /-- `SPR` and `TABLE`, written by nothing (10_state R23, R24) -/
  cfg : Params
  /-- the transport's unread bytes, oldest first (20_memory R42) -/
  rx : List Byte
  /-- the port requests of the presenter; the head is on the port and is held until accepted (30_encoding R47, R48) -/
  cmds : List Request
  /-- the reset input (70 R105) -/
  rst : Bool
  /-- what the outside has seen, oldest first (log 11) -/
  trace : List Output
  /-- the number of ticks the clock has delivered (00_scope R9; log 11) -/
  now : Nat
  /-- the number of free values drawn (log 25) -/
  draws : Nat
  deriving DecidableEq, Repr

/-- The state after reset (70 R106; 10_state R28). The registers have the spec's values; the front end is present and has
not sent its startup line (R110; log 8); the inputs are empty (log 6). -/
def State.reset : State where
  phase := 0
  dir := .forward
  delay := Config.delayReset
  remain := 0
  hold := 0
  busy := false
  gpio := 0b0000
  llen := 0
  lbuf := []
  fe := .booting
  cfg := Config.params
  rx := []
  cmds := []
  rst := false
  trace := []
  now := 0
  draws := 0

end Sys2Proof.Machine
end

