-- ==== Sys2Proof/Machine/Flags.lean ====
section
/-! DEFINITION. The one-bit state and what is read from it. The hardware has no arithmetic flags and no condition codes;
`DIR` and `BUSY` are its only one-bit state (10_state R29). -/

namespace Sys2Proof.Machine

/-- `cmd_ready = not BUSY` (30_encoding R47). -/
def cmdReady (s : State) : Bool := !s.busy

/-- The front end takes a line: it polls, and no run is in progress (30_encoding R53, 42_wire_commands R85). -/
def listening (s : State) : Bool := cmdReady s && s.fe == .polling

/-- The phases of the state machine (40_stepping R72). -/
inductive Phase where
  | idle
  | holding
  | expiring
  deriving DecidableEq, Repr

/-- The phase a state is in (40_stepping R72). -/
def phaseOf (s : State) : Phase :=
  if s.busy then (if s.hold = 0 then .expiring else .holding) else .idle

/-- An outside presenter drives the port of a machine whose front end is present (70 R119, R124). -/
def secondPresenter (s : State) : Bool := s.fe != .absent && !s.cmds.isEmpty

end Sys2Proof.Machine
end

