-- ==== Sys2Proof/Decode.lean ====
section
/-! DEFINITION. The decoder of command words and of completed lines, total on any bits and any bytes, and the encoder
written from the same tables (30_encoding R49 to R61). -/

namespace Sys2Proof

/-! ### Direction bit and port words -/

/-- `1 = Forward`, `0 = Backward` (00_scope R10, 30_encoding R49). -/
def Dir.ofBit (b : Bool) : Dir := if b then .forward else .backward

/-- The bit that stands for a direction (00_scope R10). -/
def Dir.toBit : Dir → BitVec 1
  | .backward => 0
  | .forward => 1

/-- The command word of format `PORT`: `op` in bit 33, `dir` in bit 32, `arg` in bits 31:0 (30_encoding R49). -/
def portWord (op dir : BitVec 1) (arg : Word32) : CmdWord := op ++ dir ++ arg

/-- Format `PORT`: bit 33 is `op`, bit 32 is `dir`, bits 31:0 are `arg`; `SETDELAY` ignores `dir` (30_encoding R49 to
R51). Every 34-bit word is a legal command (R50, R52). -/
def decodeWord (w : CmdWord) : Instr :=
  if w.getLsbD 33 then .setdelay (w.extractLsb' 0 32)
  else .stepcnt (w.extractLsb' 0 32) (Dir.ofBit (w.getLsbD 32))

/-- The operation a port request stands for. -/
def decodeRequest : Request → Instr
  | .word w => decodeWord w
  | .call revs dir => .steprev revs dir

/-! ### Bytes of a line -/

/-- Carriage return, ignored anywhere in a line (30_encoding R54). -/
def byteCr : Byte := 0x0D

/-- Line feed, which completes a line (30_encoding R54). -/
def byteLf : Byte := 0x0A

/-- The byte that separates tokens in a line this model writes. -/
def byteSpace : Byte := 0x20

/-- The whitespace set `WS` = space and horizontal tab (30_encoding R60, decision D12). -/
def isWs (b : Byte) : Bool := b == 0x20 || b == 0x09

/-- The bytes of the "ASCII lines" the protocol is defined for: 0x20 to 0x7E and 0x09 (30_encoding R60, U3). -/
def isText (b : Byte) : Bool := (0x20 ≤ b && b ≤ 0x7E) || b == 0x09

/-- Normalising one byte of a command token (30_encoding R58). -/
def upperByte (b : Byte) : Byte := if 0x61 ≤ b && b ≤ 0x7A then b - 0x20 else b

/-- Normalising a command token to upper case (30_encoding R58). -/
def upper (t : List Byte) : List Byte := t.map upperByte

/-- Leading and trailing `WS` bytes removed (30_encoding R56). -/
def trim (l : List Byte) : List Byte :=
  ((l.dropWhile isWs).reverse.dropWhile isWs).reverse

/-- The command token: the longest prefix without a `WS` byte (30_encoding R57). -/
def commandToken (l : List Byte) : List Byte := l.takeWhile (fun b => !isWs b)

/-- The argument string: what follows the command token, trimmed (30_encoding R57). -/
def argString (l : List Byte) : List Byte := trim (l.dropWhile (fun b => !isWs b))

/-! ### The dispatch table -/

/-- The ASCII bytes of some characters. -/
def ascii (cs : List Char) : List Byte := cs.map (fun c => BitVec.ofNat 8 c.toNat)

/-- `HEALTHCHECK`, 0x4845414C5448434845434B. -/
def nameHealthcheck : List Byte := ascii ['H', 'E', 'A', 'L', 'T', 'H', 'C', 'H', 'E', 'C', 'K']

/-- `PING`, 0x50494E47. -/
def namePing : List Byte := ascii ['P', 'I', 'N', 'G']

/-- `STEP`, 0x53544550. -/
def nameStep : List Byte := ascii ['S', 'T', 'E', 'P']

/-- `SPEED`, 0x5350454544. -/
def nameSpeed : List Byte := ascii ['S', 'P', 'E', 'E', 'D']

/-- The four registered names (30_encoding R61, 10_state R25). -/
def registeredNames : List (List Byte) := [nameHealthcheck, namePing, nameStep, nameSpeed]

/-- The look-up by byte-for-byte equality of the normalised token; a token that no name equals falls through to the
unknown command (30_encoding R59, R61). -/
def dispatch (token args : List Byte) : Instr :=
  if token = nameHealthcheck then .healthcheck args
  else if token = namePing then .ping args
  else if token = nameStep then .step args
  else if token = nameSpeed then .speed args
  else .unknown token args

/-- What the decoder finds in what was presented. -/
inductive Decoded where
  /-- an operation -/
  | instr (i : Instr)
  /-- a line that trims to nothing, "silently discarded (no response)" (30_encoding R56) -/
  | empty
  /-- a line that holds a byte outside 0x20 to 0x7E other than 0x09: rejected (30_encoding R60, U3; log 14) -/
  | notAscii
  deriving DecidableEq, Repr

/-- Steps 1 to 3 of `process(line)` (30_encoding R56 to R60). -/
def decodeLine (line : List Byte) : Decoded :=
  if line.all isText then
    if trim line = [] then .empty
    else .instr (dispatch (upper (commandToken (trim line))) (argString (trim line)))
  else .notAscii

/-- The decoder. -/
def decode : Presented → Decoded
  | .port r => .instr (decodeRequest r)
  | .line l => decodeLine l

/-! ### Words numbered as the opcode table numbers them -/

/-- The `n` low bytes of `w`, the most significant first: the table's match of a `LINE` row applies to the token
"first byte most significant" (spec/opcode_table.json). -/
def bytesOfWord : Nat → Nat → List Byte
  | 0, _ => []
  | n + 1, w => bytesOfWord n (w / 256) ++ [BitVec.ofNat 8 w]

/-- What a word of the opcode table presents: 33 to 40 bits whose value fits 34 bits are a command word of the port (34
bits in whole bytes); any other word is the bytes of a command token, a line of its own without arguments (log 22). -/
def tablePresented (nbits w : Nat) : Presented :=
  if 33 ≤ nbits ∧ nbits ≤ 40 ∧ w < 2 ^ 34 then .port (.word (BitVec.ofNat 34 w))
  else .line ((bytesOfWord ((nbits + 7) / 8) w).take Config.lineMax)

/-- The instruction the decoder reads from a word of the opcode table. -/
def decodeTableWord (nbits w : Nat) : Option Instr :=
  match decode (tablePresented nbits w) with
  | .instr i => some i
  | .empty => none
  | .notAscii => none

/-! ### The encoder -/

/-- The line of a command name and an argument string, the shortest the grammar of the table gives. -/
def encodeCommand (name args : List Byte) : List Byte :=
  match args with
  | [] => name
  | _ :: _ => name ++ byteSpace :: args

/-- What presents an instruction: the command word of 30_encoding R49 (the ignored bit of `SETDELAY` written 0), the
line of R61, or, for `STEPREV`, the call itself, which has no encoding (R66). -/
def encode : Instr → Presented
  | .stepcnt steps dir => .port (.word (portWord 0 dir.toBit steps))
  | .setdelay us => .port (.word (portWord 1 0 us))
  | .steprev revs dir => .port (.call revs dir)
  | .healthcheck args => .line (encodeCommand nameHealthcheck args)
  | .ping args => .line (encodeCommand namePing args)
  | .step args => .line (encodeCommand nameStep args)
  | .speed args => .line (encodeCommand nameSpeed args)
  | .unknown token args => .line (encodeCommand token args)

end Sys2Proof
end

