-- ==== Sys2Proof/Machine/Ops.lean ====
section
/-! DEFINITION. The shared operations: the phase table, the output register, `ADV`, `TICK`, `EXPIRE`, the line buffer,
responses, raising an error, reset and the host's moves. -/

namespace Sys2Proof.Machine

/-! ### Phase table, pins and the micro-transitions -/

/-- `MemRead(TABLE, i)` (20_memory R32). -/
def memRead (t : PhaseTable) (i : Index) : Row := t[i.toFin]

/-- `MemWrite(GPIO, v)`: all four levels in one event (20_memory R38). -/
def memWriteGpio (v : Row) (s : State) : State :=
  { s with gpio := v, trace := s.trace ++ [.pins s.now v] }

/-- The level on pin `p` (10_state R21). -/
def pin (s : State) (p : Fin 4) : Bool := s.gpio.getLsbD p

/-- `next(i, d)`: one place up or down modulo 8 (40_stepping R67); the 3-bit word wraps. -/
def nextIndex (i : Index) : Dir → Index
  | .forward => i + 1
  | .backward => i - 1

/-- `ADV`, one phase transition: four writes and the pin write in one event (40_stepping R68). -/
def adv (s : State) : State :=
  let i := nextIndex s.phase s.dir
  memWriteGpio (memRead s.cfg.table i) { s with phase := i, hold := s.delay, remain := s.remain - 1 }

/-- `TICK`: one microsecond passes (40_stepping R69). -/
def tick (s : State) : State :=
  { s with hold := if s.hold = 0 then 0 else s.hold - 1, now := s.now + 1 }

/-- `EXPIRE`, the end of a hold: the next transition, or the end of the run (40_stepping R70; log 19, log 26). -/
def expire (s : State) : State :=
  if s.remain = 0 then { s with busy := false } else adv s

/-! ### The line buffer -/

/-- What an index of `LBUF` that nothing has written reads as. The contents are irrelevant while `LLEN = 0` (10_state
R28), and no read reaches such an index. DESIGN CHOICE 0 (log 4), unsafe. -/
def blankByte : Byte := 0

/-- The byte at an address. -/
def Memory.read : Memory → Nat → Byte
  | [], _ => blankByte
  | (k, x) :: m, a => if k = a then x else Memory.read m a

/-- The memory with `v` at address `a`; writing `blankByte` removes the entry. -/
def Memory.write : Memory → Nat → Byte → Memory
  | [], a, v => if v = blankByte then [] else [(a, v)]
  | (k, x) :: m, a, v =>
    if a < k then (if v = blankByte then (k, x) :: m else (a, v) :: (k, x) :: m)
    else if a = k then (if v = blankByte then m else (a, v) :: m)
    else (k, x) :: Memory.write m a v

/-- The canonical form: addresses strictly rising, no blank byte listed, every address an index of `LBUF`. -/
abbrev Memory.wf (m : Memory) : Prop :=
  m.Pairwise (fun c d => c.1 < d.1) ∧ ∀ c ∈ m, c.2 ≠ blankByte ∧ c.1 < Config.lineMax

/-- The line assembly's store: append at `LLEN` while there is room, drop the byte otherwise (30_encoding R54, 20_memory
R41, 60_exceptions R92). -/
def appendByte (b : Byte) (s : State) : State :=
  if s.llen.toNat < Config.lineMax then
    { s with lbuf := Memory.write s.lbuf s.llen.toNat b, llen := s.llen + 1 }
  else s

/-- `LBUF[0 .. LLEN-1]`, or nothing if an index does not exist (30_encoding R54, 20_memory R35). -/
def bufferedLine (s : State) : Option (List Byte) :=
  if s.llen.toNat ≤ Config.lineMax then some ((List.range s.llen.toNat).map (Memory.read s.lbuf)) else none

/-! ### Responses, indications and errors -/

/-- `emit(text)`: one response line (00_scope R11, 20_memory R42). `writeLine` always succeeds at once (U7; log 13). -/
def emit (r : Response) (s : State) : State := { s with trace := s.trace ++ [.line r] }

/-- `ind(k)` (42_wire_commands R84). -/
def indicate (k : Indication) (s : State) : State := { s with trace := s.trace ++ [.ind k] }

/-- `raise E(info)`, the whole error mechanism: one `ERR:` line, a failure indication, and the processing of the line
ends (60_exceptions R88). Nothing is saved, so there is no return from it: the front end polls on (R96). -/
def raise (r : Response) (s : State) : State := indicate .failure (emit r s)

/-- A command without a status line has succeeded: its acknowledgement and the success indication (42_wire_commands R79,
R80). -/
def acknowledge (r : Response) (s : State) : State := indicate .success (emit r s)

/-- A command with a status line has succeeded: status line, `OK`, success indication (42_wire_commands R81, R82). -/
def succeed (status : Response) (s : State) : State := acknowledge .ok (emit status s)

/-- The end of the startup: one line that reports `SPR`, no indication, and the polling begins (70 R110). -/
def boot (s : State) : State := emit (.startup s.cfg.spr) { s with fe := .polling }

/-! ### Reset -/

/-- The unread bytes a reset leaves in the transport: the spec is silent, so each is kept or lost, free (log 10). -/
def survivors : Nat → List Byte → List Byte
  | _, [] => []
  | n, b :: bs => if Config.survivesReset n then b :: survivors (n + 1) bs else survivors (n + 1) bs

/-- Where the front end stands after reset: at its startup line if the block has one (70 R110). -/
def FrontEnd.afterReset : FrontEnd → FrontEnd
  | .absent => .absent
  | .booting => .booting
  | .polling => .booting
  | .awaiting _ _ => .booting

/-- `rst`: every register takes its reset value, the run and the line are abandoned (70 R105 to R109). What stands outside
the block stays: the parameters, the presenter's requests, the record of what was seen, the clock. -/
def applyReset (s : State) : State :=
  { State.reset with
    fe := s.fe.afterReset
    cfg := s.cfg
    rx := survivors s.draws s.rx
    cmds := s.cmds
    trace := s.trace ++ [.reset s.now]
    now := s.now
    draws := s.draws + s.rx.length }

/-! ### The host's moves -/

/-- What the host can do, between any two steps (70 R124). -/
inductive HostMove where
  /-- one byte is sent to the transport -/
  | send (b : Byte)
  /-- a request is presented at the port after those already presented -/
  | present (r : Request)
  /-- `rst` is asserted -/
  | assertRst
  deriving DecidableEq, Repr

/-- `bytesAvailable()` (20_memory R42, 30_encoding R53). -/
def bytesAvailable (s : State) : Nat := s.rx.length

/-- A byte arrives at the transport: appended in order; beyond `RXCAP` unread bytes it is kept or lost, free (10_state
R30, 70 R118, U6; log 9). -/
def receive (b : Byte) (s : State) : State :=
  if bytesAvailable s < Config.rxCap then { s with rx := s.rx ++ [b] }
  else if Config.keepsExcess s.draws then { s with rx := s.rx ++ [b], draws := s.draws + 1 }
  else { s with draws := s.draws + 1 }

/-- The state after a move of the host. No move reaches a register (10_state R28, 70 R124). -/
def hostMove : HostMove → State → State
  | .send b, s => receive b s
  | .present r, s => { s with cmds := s.cmds ++ [r] }
  | .assertRst, s => { s with rst := true }

end Sys2Proof.Machine
end

