-- ==== Sys2Proof/Machine/Operands.lean ====
section
/-! DEFINITION. The operand forms: argument tokens, real and integer tokens, the checks of `STEP` and `SPEED`, rounding
and the expansion of `STEPREV` (30_encoding R62 to R64, 40_stepping R75, R76, 42_wire_commands R81, R82). -/

namespace Sys2Proof.Machine

/-! ### Tokens -/

/-- `tokens` with the bytes of the token in progress, last first. -/
def tokensFrom : List Byte → List Byte → List (List Byte)
  | [], cur => if cur = [] then [] else [cur.reverse]
  | b :: bs, cur =>
    if isWs b then (if cur = [] then tokensFrom bs [] else cur.reverse :: tokensFrom bs [])
    else tokensFrom bs (b :: cur)

/-- The maximal runs of bytes outside `WS` (30_encoding R62). -/
def tokens (args : List Byte) : List (List Byte) := tokensFrom args []

/-! ### Numbers -/

/-- A decimal digit. -/
def isDigit (b : Byte) : Bool := 0x30 ≤ b && b ≤ 0x39

/-- The number some decimal digits spell. -/
def digitsValue (ds : List Byte) : Nat := ds.foldl (fun n d => 10 * n + (d.toNat - 0x30)) 0

/-- Whether a token has a minus sign. -/
def isNegative : List Byte → Bool
  | [] => false
  | b :: _ => b == 0x2D

/-- A token without its sign, `sign ::= "+" | "-"` (30_encoding R63). -/
def unsigned : List Byte → List Byte
  | [] => []
  | b :: bs => if b == 0x2B || b == 0x2D then bs else b :: bs

/-- The digits at the head. -/
def digitsOf (t : List Byte) : List Byte := t.takeWhile isDigit

/-- What follows the digits at the head. -/
def afterDigits (t : List Byte) : List Byte := t.dropWhile isDigit

/-- `inf`, `infinity` or `nan` in any letter case with an optional sign (30_encoding R63). -/
def isSpecial (t : List Byte) : Bool :=
  upper (unsigned t) == ascii ['I', 'N', 'F'] ||
  upper (unsigned t) == ascii ['I', 'N', 'F', 'I', 'N', 'I', 'T', 'Y'] ||
  upper (unsigned t) == ascii ['N', 'A', 'N']

/-- The three classes of a numeric token (30_encoding R63, R64), the middle one with the reason it is refused for. -/
inductive Parsed (α : Type) where
  | value (v : α)
  | refused (r : Refusal)
  | failure
  deriving DecidableEq, Repr

/-- A sign put on a magnitude. -/
def signed (t : List Byte) (n : Nat) : Int := if isNegative t then -(n : Int) else n

/-- The exact rational that a sign, whole digits and fraction digits spell (30_encoding R63, decision D20). -/
def decimal (t whole frac : List Byte) : Rat :=
  mkRat (signed t (digitsValue (whole ++ frac))) (10 ^ frac.length)

/-- A token without any prefix that is a number: the special names are refused, the rest fails (30_encoding R63, U2). -/
def noPrefix {α : Type} (t : List Byte) : Parsed α := if isSpecial t then .refused .greyNumber else .failure

/-- A number token that ends here, or one with trailing matter, which is refused (30_encoding R63, U2). -/
def fullOnly {α : Type} (rest : List Byte) (v : α) : Parsed α :=
  match rest with
  | [] => .value v
  | _ :: _ => .refused .greyNumber

/-- A real token, `real ::= sign? digits ( "." digits? )? | sign? "." digits` (30_encoding R63). -/
def parseReal (t : List Byte) : Parsed Rat :=
  let whole := digitsOf (unsigned t)
  match whole, afterDigits (unsigned t) with
  | [], [] => noPrefix t
  | [], b :: rest =>
    if b = 0x2E ∧ digitsOf rest ≠ [] then fullOnly (afterDigits rest) (decimal t [] (digitsOf rest))
    else noPrefix t
  | _ :: _, [] => .value (decimal t whole [])
  | _ :: _, b :: rest =>
    if b = 0x2E then fullOnly (afterDigits rest) (decimal t whole (digitsOf rest))
    else .refused .greyNumber

/-- An integer value is taken if it fits 32 bits and refused otherwise (30_encoding R64, U5). -/
def inRange (v : Int) : Parsed Int :=
  if Config.minCount ≤ v ∧ v ≤ Config.maxCount then .value v else .refused .integerOutOfRange

/-- An integer token, `int ::= sign? digits` (30_encoding R64). -/
def parseInt (t : List Byte) : Parsed Int :=
  match digitsOf (unsigned t), afterDigits (unsigned t) with
  | [], _ => noPrefix t
  | d :: ds, [] => inRange (signed t (digitsValue (d :: ds)))
  | _ :: _, _ :: _ => .refused .greyNumber

/-! ### The checks of the wire commands -/

/-- The outcome of the checks a handler makes on its argument string before it issues anything (42_wire_commands R81,
R82, R86). -/
inductive Checked (α : Type) where
  | ok (v : α)
  | usage
  | refused (r : Refusal)
  deriving DecidableEq, Repr

/-- The values of the two tokens of a `STEP` (42_wire_commands R81): a magnitude above 0 and a flag 0 or 1. -/
def stepValues (m : Rat) (f : Int) : Checked (Rat × Dir) :=
  if m ≤ 0 then .usage
  else if f = 0 then .ok (m, .backward)
  else if f = 1 then .ok (m, .forward)
  else .usage

/-- The classes of the two tokens of a `STEP`: refusal comes before failure (42_wire_commands R81). -/
def stepClasses : Parsed Rat → Parsed Int → Checked (Rat × Dir)
  | .refused r, _ => .refused r
  | .value _, .refused r => .refused r
  | .failure, .refused r => .refused r
  | .failure, .value _ => .usage
  | .failure, .failure => .usage
  | .value _, .failure => .usage
  | .value m, .value f => stepValues m f

/-- The checks of the tokens of a `STEP`: exactly two (42_wire_commands R81, 30_encoding R62). -/
def checkStepTokens : List (List Byte) → Checked (Rat × Dir)
  | [t, u] => stepClasses (parseReal t) (parseInt u)
  | [] => .usage
  | [_] => .usage
  | _ :: _ :: _ :: _ => .usage

/-- The checks of `STEP` on its argument string (42_wire_commands R81). -/
def checkStep (args : List Byte) : Checked (Rat × Dir) := checkStepTokens (tokens args)

/-- The class and value of the token of a `SPEED` (42_wire_commands R82). -/
def speedClass : Parsed Int → Checked Int
  | .refused r => .refused r
  | .failure => .usage
  | .value u => if u ≤ 0 then .usage else .ok u

/-- The checks of the tokens of a `SPEED`: none is a usage error, two or more are refused (42_wire_commands R82, U4). -/
def checkSpeedTokens : List (List Byte) → Checked Int
  | [] => .usage
  | [t] => speedClass (parseInt t)
  | _ :: _ :: _ => .refused .speedExtraTokens

/-- The checks of `SPEED` on its argument string (42_wire_commands R82). -/
def checkSpeed (args : List Byte) : Checked Int := checkSpeedTokens (tokens args)

/-! ### Revolutions to steps -/

/-- `floor(revs × SPR + 1/2)`, exact: with `revs = n / d` it is the floor of `(2 n SPR + d) / (2 d)` (40_stepping R75,
decision D20; log 24). -/
def totalSteps (spr : Nat) (revs : Rat) : Int := (2 * revs.num * spr + revs.den) / (2 * revs.den)

/-- What `STEPREV` issues: zero or one `STEPCNT`, or nothing because the total is refused (40_stepping R76). -/
inductive Expansion where
  | nothing
  | stepcnt (steps : Word32) (dir : Dir)
  | refused
  deriving DecidableEq, Repr

/-- The expansion of a magnitude: nothing if it rounds to 0, refused above `2^31 - 1` (40_stepping R76). -/
def expandTotal (total : Int) (dir : Dir) : Expansion :=
  if total ≤ 0 then .nothing
  else if total > Config.maxCount then .refused
  else .stepcnt (BitVec.ofInt 32 total) dir

/-- The expansion of `STEPREV revs, dir` (40_stepping R76). -/
def expandRev (spr : Nat) (revs : Rat) (dir : Dir) : Expansion :=
  if revs = 0 then .nothing
  else if revs < 0 then expandTotal (totalSteps spr (-revs)) dir.flip
  else expandTotal (totalSteps spr revs) dir

end Sys2Proof.Machine
end

