-- ==== Sys2Proof/Machine/Control.lean ====
section
/-! DEFINITION. The control operation `SETDELAY` (41_control). -/

namespace Sys2Proof.Machine

/-- The acceptance of a `SETDELAY`: a value above 0 is stored, any other is ignored (41_control R77). -/
def acceptSetdelay (us : Word32) (s : State) : State :=
  if us.toInt ≤ 0 then s else { s with delay := us }

/-- `SETDELAY us` (41_control R77). Nothing is accepted while `BUSY = 1`: the word waits (30_encoding R48; log 18). -/
def execSetdelay (us : Word32) (s : State) : Host.Outcome State Fault Refusal :=
  if cmdReady s then .next (acceptSetdelay us s) else .next s

end Sys2Proof.Machine
end

