-- ==== Sys2Proof/Machine/Stepping.lean ====
section
/-! DEFINITION. The stepping family: `STEPCNT` and the pseudo-operation `STEPREV` (40_stepping). -/

namespace Sys2Proof.Machine

/-- The acceptance of a `STEPCNT`: a count of 0 or below does nothing; otherwise the run starts and its first transition
is made in the same moment (40_stepping R71). -/
def acceptStepcnt (steps : Word32) (dir : Dir) (s : State) : State :=
  if steps.toInt ≤ 0 then s
  else adv { s with dir := dir, remain := steps, busy := true }

/-- `STEPCNT steps, dir` (40_stepping R71). Nothing is accepted while `BUSY = 1`: the word waits (30_encoding R48; log
18). -/
def execStepcnt (steps : Word32) (dir : Dir) (s : State) : Host.Outcome State Fault Refusal :=
  if cmdReady s then .next (acceptStepcnt steps dir s) else .next s

/-- What an expansion issues at the port. -/
def issueExpansion (e : Expansion) (s : State) : Host.Outcome State Fault Refusal :=
  match e with
  | .nothing => .next s
  | .stepcnt steps dir => .next (acceptStepcnt steps dir s)
  | .refused => .refused .totalOutOfRange

/-- `STEPREV revs, dir` (40_stepping R76). It waits while `BUSY = 1` (30_encoding R48; log 18). -/
def execSteprev (revs : Rat) (dir : Dir) (s : State) : Host.Outcome State Fault Refusal :=
  if cmdReady s then issueExpansion (expandRev s.cfg.spr revs dir) s else .next s

end Sys2Proof.Machine
end

