-- ==== Sys2Proof/Machine/Wire.lean ====
section
/-! DEFINITION. The wire commands and the unknown token (42_wire_commands; log 27). A handler runs when the front end polls and
no run is in progress; otherwise the front end stands still (R85; log 18). -/

namespace Sys2Proof.Machine

/-- `HEALTHCHECK`: `OK` and the success indication, the argument string not examined (42_wire_commands R79). -/
def execHealthcheck (_args : List Byte) (s : State) : Host.Outcome State Fault Refusal :=
  if listening s then .next (acknowledge .ok s) else .next s

/-- `PING`: `PONG` and the success indication, the argument string not examined (42_wire_commands R80). -/
def execPing (_args : List Byte) (s : State) : Host.Outcome State Fault Refusal :=
  if listening s then .next (acknowledge .pong s) else .next s

/-- The `issue` of a valid `STEP` and what follows it: with no transition to make the answer comes at once; with a run
the front end waits for its end (42_wire_commands R81, R85; log 21). -/
def issueStep (e : Expansion) (m : Rat) (f : Dir) (s : State) : Host.Outcome State Fault Refusal :=
  match e with
  | .nothing => .next (succeed (.stepStatus m f) s)
  | .stepcnt steps dir => .next (acceptStepcnt steps dir { s with fe := .awaiting m f })
  | .refused => .refused .totalOutOfRange

/-- A `STEP` after its checks (42_wire_commands R81). -/
def handleStep (c : Checked (Rat × Dir)) (s : State) : Host.Outcome State Fault Refusal :=
  match c with
  | .usage => .next (raise .stepUsage s)
  | .refused r => .refused r
  | .ok (m, f) => issueStep (expandRev s.cfg.spr m f) m f s

/-- `STEP <revolutions> <direction>` (42_wire_commands R81). -/
def execStep (args : List Byte) (s : State) : Host.Outcome State Fault Refusal :=
  if listening s then handleStep (checkStep args) s else .next s

/-- The end of a `STEP` whose run is over: status line, `OK`, success indication, and the polling goes on
(42_wire_commands R81, R85). -/
def completeStep (m : Rat) (f : Dir) (s : State) : State := succeed (.stepStatus m f) { s with fe := .polling }

/-- A `SPEED` after its checks (42_wire_commands R82). -/
def handleSpeed (c : Checked Int) (s : State) : Host.Outcome State Fault Refusal :=
  match c with
  | .usage => .next (raise .speedUsage s)
  | .refused r => .refused r
  | .ok u => .next (succeed (.speedStatus u) (acceptSetdelay (BitVec.ofInt 32 u) s))

/-- `SPEED <delay_us>` (42_wire_commands R82). -/
def execSpeed (args : List Byte) (s : State) : Host.Outcome State Fault Refusal :=
  if listening s then handleSpeed (checkSpeed args) s else .next s

/-- The unknown token: `UnknownCommand(token)`, the argument string ignored (42_wire_commands R83). -/
def execUnknown (token _args : List Byte) (s : State) : Host.Outcome State Fault Refusal :=
  if listening s then .next (raise (.unknownCommand token) s) else .next s

end Sys2Proof.Machine
end

