-- ==== Sys2Proof/Machine/Dispatch.lean ====
section
/-! DEFINITION. The dispatch of an instruction to its meaning. -/

namespace Sys2Proof.Machine

def exec (i : Instr) (s : State) : Host.Outcome State Fault Refusal :=
  match i with
  | .stepcnt steps dir => Sys2Proof.Machine.execStepcnt steps dir s
  | .setdelay us => Sys2Proof.Machine.execSetdelay us s
  | .steprev revs dir => Sys2Proof.Machine.execSteprev revs dir s
  | .healthcheck args => Sys2Proof.Machine.execHealthcheck args s
  | .ping args => Sys2Proof.Machine.execPing args s
  | .step args => Sys2Proof.Machine.execStep args s
  | .speed args => Sys2Proof.Machine.execSpeed args s
  | .unknown token args => Sys2Proof.Machine.execUnknown token args s

end Sys2Proof.Machine
end

