-- ==== Sys2Proof/Machine/Responses.lean ====
section
/-! DEFINITION. The texts of the response lines, their bytes on the transport, and the lengths of the indications
(30_encoding R65, 42_wire_commands R84). -/

namespace Sys2Proof.Machine

/-- `EVENT:` -/
def eventPrefix : List Byte := ascii ['E', 'V', 'E', 'N', 'T', ':']

/-- `ERR:` -/
def errPrefix : List Byte := ascii ['E', 'R', 'R', ':']

/-- The apostrophe, 0x27, literal in the unknown-command text (30_encoding R65). -/
def apostrophe : Byte := 0x27

/-- `STEP usage STEP <revs> <0|1>` -/
def stepUsageText : List Byte :=
  ascii ['S', 'T', 'E', 'P', ' ', 'u', 's', 'a', 'g', 'e', ' ', 'S', 'T', 'E', 'P', ' '] ++
  ascii ['<', 'r', 'e', 'v', 's', '>', ' ', '<', '0', '|', '1', '>']

/-- `SPEED usage SPEED <positive_delay_us>` -/
def speedUsageText : List Byte :=
  ascii ['S', 'P', 'E', 'E', 'D', ' ', 'u', 's', 'a', 'g', 'e', ' ', 'S', 'P', 'E', 'E', 'D', ' '] ++
  ascii ['<', 'p', 'o', 's', 'i', 't', 'i', 'v', 'e', '_', 'd', 'e', 'l', 'a', 'y', '_', 'u', 's', '>']

/-- `UNKNOWN COMMAND '<token>'` -/
def unknownCommandText (token : List Byte) : List Byte :=
  ascii ['U', 'N', 'K', 'N', 'O', 'W', 'N', ' ', 'C', 'O', 'M', 'M', 'A', 'N', 'D', ' '] ++
  apostrophe :: token ++ [apostrophe]

/-- The text of a response line without its terminator (30_encoding R65, 60_exceptions R89 to R91, R93). -/
def Response.text : Response → List Byte
  | .ok => ascii ['O', 'K']
  | .pong => ascii ['P', 'O', 'N', 'G']
  | .stepStatus m f => eventPrefix ++ Config.statusStep m f
  | .speedStatus u => eventPrefix ++ Config.statusSpeed u
  | .startup spr => eventPrefix ++ Config.startupText spr
  | .stepUsage => errPrefix ++ stepUsageText
  | .speedUsage => errPrefix ++ speedUsageText
  | .unknownCommand token => errPrefix ++ unknownCommandText token

/-- What `writeLine` puts after a text: LF or CR LF, open (30_encoding R65, U15). -/
def terminator : List Byte := if Config.lineEndsWithCr then [byteCr, byteLf] else [byteLf]

/-- The bytes one `writeLine` puts on the transport. -/
def Response.wire (r : Response) : List Byte := r.text ++ terminator

/-- The length of an indication: longer on success, shorter on failure (42_wire_commands R84, decision D23). -/
def Indication.duration : Indication → Nat
  | .success => Config.indOk
  | .failure => Config.indFail

/-- The response lines of a record, in order (20_memory R42). -/
def linesOf : List Output → List Response
  | [] => []
  | .line r :: os => r :: linesOf os
  | .pins _ _ :: os => linesOf os
  | .ind _ :: os => linesOf os
  | .reset _ :: os => linesOf os

/-- The pin writes of a record, with their times (20_memory R38). -/
def pinWrites : List Output → List (Nat × Row)
  | [] => []
  | .pins t v :: os => (t, v) :: pinWrites os
  | .line _ :: os => pinWrites os
  | .ind _ :: os => pinWrites os
  | .reset _ :: os => pinWrites os

/-- The bytes the transport has been given to send: the transmit stream (20_memory R35, R42). -/
def transmitted (s : State) : List Byte := (linesOf s.trace).flatMap Response.wire

end Sys2Proof.Machine
end

