-- ==== Sys2Proof/Machine/Cycle.lean ====
section
/-! DEFINITION. What one step does: the order of the agents, the polling of the transport, the line assembly and the
command port. Step.lean calls `cycle`. -/

namespace Sys2Proof.Machine

/-- `process(line)` (30_encoding R56 to R59): an empty line is discarded, a line that is not ASCII text is refused. -/
def processLine (line : List Byte) (s : State) : Host.Outcome State Fault Refusal :=
  match decodeLine line with
  | .instr i => exec i s
  | .empty => .next s
  | .notAscii => .refused .lineNotAscii

/-- A line feed: the line is complete, the buffer is reset, the line is processed (30_encoding R54). -/
def completeLine (s : State) : Host.Outcome State Fault Refusal :=
  match bufferedLine s with
  | some line => processLine line { s with llen := 0 }
  | none => .fault .lineBufferRange

/-- Line assembly for one received byte (30_encoding R54). -/
def assemble (b : Byte) (s : State) : Host.Outcome State Fault Refusal :=
  if b = byteCr then .next s
  else if b = byteLf then completeLine s
  else .next (appendByte b s)

/-- One step of the polling loop: the oldest unread byte, if there is one (30_encoding R53, 20_memory R42). -/
def poll (s : State) : Host.Outcome State Fault Refusal :=
  match s.rx with
  | [] => .next (tick s)
  | b :: rest => assemble b { s with rx := rest }

/-- The port of an idle sequencer: the request on it is accepted (30_encoding R47, R48). -/
def acceptRequest (s : State) : Host.Outcome State Fault Refusal :=
  match s.cmds with
  | [] => .next (tick s)
  | r :: rest => exec (decodeRequest r) { s with cmds := rest }

/-- What an idle machine does next: the port, the startup line, the end of a `STEP`, or the polling loop; with nothing to
do, time passes (70 R123). -/
def idleStep (s : State) : Host.Outcome State Fault Refusal :=
  match s.fe with
  | .absent => acceptRequest s
  | .booting => .next (boot s)
  | .awaiting m f => .next (completeStep m f s)
  | .polling => poll s

/-- One step of the machine (log 5): `rst` comes first; a second presenter is not admitted; during a run `EXPIRE` fires
at `HOLD = 0` before the next `TICK`, and nothing but `TICK` moves a hold (40_stepping R70, R72); an idle machine takes its
next input. -/
def cycle (s : State) : Host.Outcome State Fault Refusal :=
  if s.rst then .next (applyReset s)
  else if secondPresenter s then .refused .secondPresenter
  else match phaseOf s with
    | .expiring => .next (expire s)
    | .holding => .next (tick s)
    | .idle => idleStep s

/-! ### Placing an instruction where the next step takes it -/

/-- The machine made idle and released from `rst`. -/
def quiet (s : State) : State := { s with busy := false, remain := 0, hold := 0, rst := false }

/-- A request put on the port of a block that is driven at the port. -/
def placeRequest (r : Request) (s : State) : State := { quiet s with fe := .absent, cmds := r :: s.cmds }

/-- The front end at its polling loop, its startup line sent. -/
def pollingOf (s : State) : State :=
  match s.fe with
  | .booting => boot s
  | .absent => { s with fe := .polling }
  | .polling => s
  | .awaiting _ _ => { s with fe := .polling }

/-- A line in the line buffer whose line feed is the next unread byte. -/
def placeLine (line : List Byte) (s : State) : State :=
  let s := line.foldl (fun s b => appendByte b s) { pollingOf (quiet s) with llen := 0, cmds := [] }
  { s with rx := byteLf :: s.rx }

/-- What was presented, placed so that the very next step takes it (log 1). -/
def place : Presented → State → State
  | .port r, s => placeRequest r s
  | .line l, s => placeLine l s

end Sys2Proof.Machine
end

