-- ==== Sys2Proof/Machine/Step.lean ====
section
/-! DEFINITION. One step of the machine, and the placing of a table word where the next step fetches. -/

namespace Sys2Proof.Machine

/-- One step. -/
def step (s : State) : Host.Outcome State Fault Refusal := cycle s

/-- The state in which the next step takes the instruction of a table word (log 1, log 22). -/
def State.withFetchWord (s : State) (nbits w : Nat) : State := place (tablePresented nbits w) s

end Sys2Proof.Machine
end

