-- ==== Sys2Proof/Safety.lean ====
section
/-! DEFINITION. What counts as a safe state and a safe run, in the terms the statements use. -/

namespace Sys2Proof.Machine

/-- The invariant of the machine: the idle clauses, the bounds of the registers, the canonical line buffer, the relation
of the pins to `PHASE`, who owns a run, and the empty line of a waiting front end. -/
structure Inv (s : State) : Prop where
  /-- `BUSY = 0` implies `REMAIN = 0` and `HOLD = 0` (40_stepping R72) -/
  idle_clear : s.busy = false → s.remain = 0 ∧ s.hold = 0
  /-- `HOLD <= DELAY` (40_stepping R72) -/
  hold_le : s.hold ≤ s.delay
  /-- `DELAY` is 1 to `2^31 - 1` (10_state R17) -/
  delay_pos : 0 < s.delay.toInt
  /-- `REMAIN` is 0 to `2^31 - 1` (10_state R18) -/
  remain_nonneg : 0 ≤ s.remain.toInt
  /-- `LLEN` is 0 to 200 (10_state R26) -/
  llen_le : s.llen.toNat ≤ Config.lineMax
  /-- `LBUF` is in its canonical form -/
  lbuf_wf : Memory.wf s.lbuf
  /-- `SPR` is positive (10_state R23) -/
  spr_pos : 0 < s.cfg.spr
  /-- `TABLE` is admissible (20_memory R33; log 29) -/
  table_ok : s.cfg.table.admissible = true
  /-- the pins show the row of `PHASE`, or nothing has been stepped since reset (10_state R22) -/
  pins : s.gpio = memRead s.cfg.table s.phase ∨ (s.gpio = 0 ∧ s.phase = 0 ∧ s.busy = false)
  /-- a run in progress belongs to the port of a block without front end or to a waiting `STEP` (42_wire_commands R85) -/
  run_owner : s.busy = true → s.fe = .absent ∨ ∃ m f, s.fe = .awaiting m f
  /-- `LLEN = 0` while a `STEP` waits (42_wire_commands R85) -/
  awaiting_empty : ∀ m f, s.fe = .awaiting m f → s.llen = 0

/-- The state of rest (70 R123). -/
abbrev atRest (s : State) : Prop :=
  s.busy = false ∧ s.cmds = [] ∧ s.rx = [] ∧ s.rst = false ∧ (s.fe = .absent ∨ s.fe = .polling)

/-- A machine right after reset, whatever parameters it is built with, with or without a front end (70 R106, 00_scope R5,
R8). -/
def freshState (p : Params) (withFrontEnd : Bool) : State :=
  { State.reset with cfg := p, fe := if withFrontEnd then .booting else .absent }

/-- The states of a run: steps of the machine and moves of the host, in any order, from any machine that is built with a
positive `SPR` and an admissible table (70 R124). -/
inductive Reachable : State → Prop where
  | fresh (p : Params) (withFrontEnd : Bool) (hspr : 0 < p.spr) (htable : p.table.admissible = true) :
    Reachable (freshState p withFrontEnd)
  | step {s t : State} (hs : Reachable s) (h : step s = .next t) : Reachable t
  | host {s : State} (hs : Reachable s) (m : HostMove) : Reachable (hostMove m s)

/-- A safe run: no step of it stops with a fault (60_exceptions R97). -/
def faultFree (s : State) : Prop := ∀ r, step s ≠ .fault r

/-- The index after `k` transitions in one direction (40_stepping R73 (b)). -/
def indexAfter (i : Index) (d : Dir) (k : Nat) : Index :=
  match d with
  | .forward => BitVec.ofNat 3 ((i.toNat + k) % 8)
  | .backward => BitVec.ofInt 3 (((i.toNat : Int) - k) % 8)

/-- The pin writes of the next `k` transitions, the first at time `t0`, one every `D` ticks (40_stepping R73 (a), (b)). -/
def writesFrom (table : PhaseTable) (i : Index) (d : Dir) (t0 D : Nat) (k : Nat) : List Output :=
  (List.range k).map (fun j => .pins (t0 + j * D) (memRead table (indexAfter i d (j + 1))))

/-- Nothing outside interrupts: `rst` is not asserted and no second presenter drives the port (70 R107, R124). -/
abbrev undisturbed (s : State) : Prop := s.rst = false ∧ secondPresenter s = false

/-- `n` steps of the machine, stopping at the first fault or refusal. -/
def run : Nat → State → Host.Outcome State Fault Refusal
  | 0, s => .next s
  | n + 1, s =>
    match step s with
    | .next t => run n t
    | .fault r => .fault r
    | .refused r => .refused r

/-- `STEPCNT n, d` has started at `s`: its first transition is made (40_stepping R71). -/
def startedRun (s : State) (n : Word32) (d : Dir) : State :=
  { s with
    dir := d, remain := n - 1, busy := true, phase := nextIndex s.phase d
    gpio := memRead s.cfg.table (nextIndex s.phase d), hold := s.delay
    trace := s.trace ++ [.pins s.now (memRead s.cfg.table (nextIndex s.phase d))] }

/-- The state `j` ticks after the `k`-th transition of a run of `n` started at `s` (40_stepping R73). -/
def runningState (s : State) (n : Word32) (d : Dir) (k j : Nat) : State :=
  { s with
    dir := d, remain := BitVec.ofNat 32 (n.toNat - k), busy := true, phase := indexAfter s.phase d k
    gpio := memRead s.cfg.table (indexAfter s.phase d k), hold := BitVec.ofNat 32 (s.delay.toNat - j)
    now := s.now + (k - 1) * s.delay.toNat + j
    trace := s.trace ++ writesFrom s.cfg.table s.phase d s.now s.delay.toNat k }

/-- The state at the end of a run of `n` started at `s` (40_stepping R73 (c), (f)). -/
def finishedRun (s : State) (n : Word32) (d : Dir) : State :=
  { s with
    dir := d, remain := 0, hold := 0, busy := false, phase := indexAfter s.phase d n.toNat
    gpio := memRead s.cfg.table (indexAfter s.phase d n.toNat)
    now := s.now + n.toNat * s.delay.toNat
    trace := s.trace ++ writesFrom s.cfg.table s.phase d s.now s.delay.toNat n.toNat }

end Sys2Proof.Machine
end

