-- ==== Sys2Proof/WellFormed.lean ====
section
/-! DEFINITION. Which instructions an encoding can stand for. -/

namespace Sys2Proof

/-- An argument string as the tokeniser leaves it: text bytes, no `WS` at either end (30_encoding R57, R60). -/
def argsWellFormed (args : List Byte) : Bool := args.all isText && trim args == args

/-- A command line that the line buffer holds whole (30_encoding R54, R55). -/
def lineFits (name args : List Byte) : Bool := (encodeCommand name args).length ≤ Config.lineMax

/-- A normalised command token: not empty, text without `WS`, no lower-case letter (30_encoding R57, R58). -/
def tokenWellFormed (token : List Byte) : Bool :=
  !token.isEmpty && token.all (fun b => isText b && !isWs b && upperByte b == b)

/-- The checks of one instruction. The port operations and `STEPREV` take every operand value (30_encoding R50, R52;
40_stepping R76). -/
def Instr.wellFormed : Instr → Bool
  | .stepcnt _ _ => true
  | .setdelay _ => true
  | .steprev _ _ => true
  | .healthcheck args => argsWellFormed args && lineFits nameHealthcheck args
  | .ping args => argsWellFormed args && lineFits namePing args
  | .step args => argsWellFormed args && lineFits nameStep args
  | .speed args => argsWellFormed args && lineFits nameSpeed args
  | .unknown token args =>
    tokenWellFormed token && !registeredNames.contains token && argsWellFormed args && lineFits token args

end Sys2Proof
end

