-- ==== Sys2Proof/Certificates/Slice0/Obligations.lean ====
section
/-! DEFINITION. The statements for the provers. Each docstring names the rules of spec/ it is about. -/

open Sys2Proof Sys2Proof.Machine

/-! ### Encoding -/

/-- Decode and encode agree, for every well-formed instruction (30_encoding R49 to R51, R57, R58, R61). -/
def Obligations.DecodeEncodeRoundTrip : Prop :=
  ∀ i : Instr, i.wellFormed = true → decode (encode i) = .instr i

/-- Format `PORT`: bit 33 alone selects the operation, bit 32 is the direction, ignored by `SETDELAY`, bits 31:0 are the
operand; every word is one of these (30_encoding R49, R50, R51). -/
def Obligations.PortWordFields : Prop :=
  (∀ (op dir : Bool) (arg : Word32),
    decodeRequest (.word (BitVec.ofNat 34 (op.toNat * 2 ^ 33 + dir.toNat * 2 ^ 32 + arg.toNat))) =
      if op then .setdelay arg else .stepcnt arg (if dir then .forward else .backward)) ∧
  ∀ w : CmdWord, ∃ (op dir : Bool) (arg : Word32),
    w = BitVec.ofNat 34 (op.toNat * 2 ^ 33 + dir.toNat * 2 ^ 32 + arg.toNat)

/-- Encoding a decoded port word gives the word back, with the one ignored bit written 0 (30_encoding R49, R51). -/
def Obligations.PortEncodeOfDecode : Prop :=
  ∀ w : CmdWord, encode (decodeRequest (.word w)) =
    .port (.word (if w.getLsbD 33 then w &&& 0x2FFFFFFFF else w))

/-- Words and lines written out from 95_test_vectors 2.5 and 2.6, V33 to V42, decode to what they stand for. -/
def Obligations.WordsFromTheSpecDecode : Prop :=
  decode (.port (.word 0x100000003)) = .instr (.stepcnt 3 .forward) ∧
  decode (.port (.word 0x000002000)) = .instr (.stepcnt 8192 .backward) ∧
  decode (.port (.word 0x180000000)) = .instr (.stepcnt 0x80000000 .forward) ∧
  decode (.port (.word 0x2000003E8)) = .instr (.setdelay 1000) ∧
  decode (.port (.word 0x3000003E8)) = .instr (.setdelay 1000) ∧
  decode (.line [0x70, 0x69, 0x6E, 0x67]) = .instr (.ping []) ∧
  decode (.line [0x20, 0x09, 0x53, 0x54, 0x45, 0x50, 0x09, 0x09, 0x32, 0x20, 0x20, 0x30, 0x20]) =
    .instr (.step [0x32, 0x20, 0x20, 0x30]) ∧
  decode (.line [0x53, 0x54, 0x45, 0x50, 0x53, 0x20, 0x31, 0x20, 0x31]) =
    .instr (.unknown [0x53, 0x54, 0x45, 0x50, 0x53] [0x31, 0x20, 0x31]) ∧
  decode (.line [0x20, 0x20]) = .empty

/-- Leading and trailing whitespace of a line does not matter (30_encoding R56). -/
def Obligations.LinePaddingIgnored : Prop :=
  ∀ pre l post : List Byte, pre.all isWs = true → post.all isWs = true →
    decodeLine (pre ++ l ++ post) = decodeLine l

/-- The command token is normalised to upper case and looked up; the argument string is what follows, trimmed and not
normalised (30_encoding R57, R58). -/
def Obligations.CommandTokenNormalised : Prop :=
  ∀ token args : List Byte, token ≠ [] → token.all (fun b => isText b && !isWs b) = true → args.all isText = true →
    (∀ w : Byte, isWs w = true → decodeLine (token ++ w :: args) = .instr (dispatch (upper token) (trim args))) ∧
    decodeLine token = .instr (dispatch (upper token) []) ∧
    ∀ b : Byte, upperByte b = if 0x61 ≤ b.toNat ∧ b.toNat ≤ 0x7A then BitVec.ofNat 8 (b.toNat - 0x20) else b

/-- A token reaches a handler exactly if it equals its registered name, and every other token is unknown (30_encoding
R59, R61). -/
def Obligations.DispatchIsExactMatch : Prop :=
  ∀ token args : List Byte,
    (dispatch token args = .healthcheck args ↔ token = nameHealthcheck) ∧
    (dispatch token args = .ping args ↔ token = namePing) ∧
    (dispatch token args = .step args ↔ token = nameStep) ∧
    (dispatch token args = .speed args ↔ token = nameSpeed) ∧
    (dispatch token args = .unknown token args ↔ token ∉ registeredNames)

/-! ### Line assembly -/

/-- A polling front end fed with the bytes of a line and its line feed processes the first 200 of the bytes that are no
carriage return; the buffer is then empty and nothing else has changed (30_encoding R54, R55, 20_memory R41). -/
def Obligations.LineAssembledFromBytes : Prop :=
  ∀ (s : State) (bs rest : List Byte), s.fe = .polling → s.busy = false → undisturbed s → s.llen = 0 →
    Memory.wf s.lbuf → byteLf ∉ bs → s.rx = bs ++ byteLf :: rest →
    ∃ m : Memory, Memory.wf m ∧
      run (bs.length + 1) s =
        processLine ((bs.filter (fun b => b != byteCr)).take 200) { s with rx := rest, llen := 0, lbuf := m }

/-- A carriage return, and a byte that arrives at a full buffer, are consumed and leave no trace (30_encoding R54,
60_exceptions R92). -/
def Obligations.DroppedBytesLeaveNoTrace : Prop :=
  ∀ (s : State) (b : Byte) (rest : List Byte), s.fe = .polling → s.busy = false → undisturbed s → s.rx = b :: rest →
    b = byteCr ∨ (b ≠ byteLf ∧ 200 ≤ s.llen.toNat) → step s = .next { s with rx := rest }

/-- Any other byte is stored at `LBUF[LLEN]` and counted; every other byte of the buffer reads as before and nothing else
changes (30_encoding R54, 20_memory R41). -/
def Obligations.ByteIsAppended : Prop :=
  ∀ (s : State) (b : Byte) (rest : List Byte), s.fe = .polling → s.busy = false → undisturbed s → s.rx = b :: rest →
    Memory.wf s.lbuf → b ≠ byteCr → b ≠ byteLf → s.llen.toNat < 200 →
    ∃ t, step s = .next t ∧ t = { s with rx := rest, lbuf := t.lbuf, llen := t.llen } ∧
      t.llen.toNat = s.llen.toNat + 1 ∧ Memory.read t.lbuf s.llen.toNat = b ∧
      (∀ a, a ≠ s.llen.toNat → Memory.read t.lbuf a = Memory.read s.lbuf a) ∧ Memory.wf t.lbuf

/-! ### The state machine -/

/-- `next(i, d)`, and that `PHASE` only ever moves to one of its two neighbours: whatever a step does, `rst` apart, it
leaves `PHASE` alone or takes it there (40_stepping R67). -/
def Obligations.NextIndexFormula : Prop :=
  (∀ i : Index, (nextIndex i .forward).toNat = (i.toNat + 1) % 8 ∧
    (nextIndex i .backward).toNat = (i.toNat - 1 + 8 : Int) % 8) ∧
  ∀ s t : State, s.rst = false → step s = .next t →
    t.phase = s.phase ∨ t.phase = nextIndex s.phase .forward ∨ t.phase = nextIndex s.phase .backward

/-- Eight transitions in one direction are the identity on the index, and a step and its opposite cancel (40_stepping
R74). -/
def Obligations.NextIndexIsCyclic : Prop :=
  ∀ i : Index, (∀ d, (fun j => nextIndex j d)^[8] i = i) ∧
    nextIndex (nextIndex i .forward) .backward = i ∧ nextIndex (nextIndex i .backward) .forward = i

/-- At the end of a hold the step is one `EXPIRE`, in no time. With transitions left it is one `ADV`: `PHASE` to its
neighbour, the row at the new index on the pins in one write, the hold reloaded, one transition fewer left. With none left
it clears `BUSY` and nothing else: the pins stay (40_stepping R68, R70, 20_memory R38, R39). -/
def Obligations.ExpiredHoldStepsOrEndsRun : Prop :=
  ∀ s : State, undisturbed s → s.busy = true → s.hold = 0 →
    (s.remain ≠ 0 → step s = .next { s with
      phase := nextIndex s.phase s.dir
      gpio := memRead s.cfg.table (nextIndex s.phase s.dir)
      hold := s.delay
      remain := s.remain - 1
      trace := s.trace ++ [.pins s.now (memRead s.cfg.table (nextIndex s.phase s.dir))] }) ∧
    (s.remain = 0 → step s = .next { s with busy := false })

/-- During a hold a step is one `TICK`, which counts `HOLD` down and changes no other register; in the state of rest a
`TICK` changes nothing but the clock's own count (40_stepping R69, R72, 70 R123). -/
def Obligations.TickCountsHoldDown : Prop :=
  ∀ s : State,
    (undisturbed s → s.busy = true → s.hold ≠ 0 →
      step s = .next { s with hold := s.hold - 1, now := s.now + 1 } ∧ (s.hold - 1).toNat + 1 = s.hold.toNat) ∧
    (atRest s → s.hold = 0 → step s = .next { s with now := s.now + 1 })

/-! ### The port operations -/

/-- `STEPCNT` on an idle sequencer: a count of 0 or below changes nothing; any other starts the run with its first
transition in the same moment (40_stepping R71, 30_encoding R52). -/
def Obligations.StepcntStartsRun : Prop :=
  ∀ (s : State) (n : Word32) (d : Dir), s.busy = false →
    (n.toInt ≤ 0 → exec (.stepcnt n d) s = .next s) ∧
    (0 < n.toInt → exec (.stepcnt n d) s = .next (startedRun s n d))

/-- `SETDELAY`: the words whose bit 33 is set, bit 32 ignored; on an idle sequencer a value above 0 is stored, any other
changes nothing, and nothing else changes (41_control R77). It is accepted only when `BUSY = 0`; that `exec` then answers
the state unchanged is the model's choice (log 18). -/
def Obligations.SetdelayStoresPositive : Prop :=
  (∀ (dir : BitVec 1) (us : Word32), decodeRequest (.word (portWord 1 dir us)) = .setdelay us) ∧
  ∀ (s : State) (us : Word32),
    (s.busy = true → exec (.setdelay us) s = .next s) ∧
    (s.busy = false → 0 < us.toInt → exec (.setdelay us) s = .next { s with delay := us }) ∧
    (s.busy = false → us.toInt ≤ 0 → exec (.setdelay us) s = .next s)

/-- While `BUSY = 1` no operation of any kind has an effect: a port operation is not accepted, the front end takes no step
(30_encoding R48, 42_wire_commands R85; the form of the wait in `exec` is the model's, log 18). -/
def Obligations.EveryOperationWaitsWhileBusy : Prop :=
  ∀ (i : Instr) (s : State), s.busy = true → exec i s = .next s

/-- Rounding is exact: the total is `floor(revs × SPR + 1/2)` (40_stepping R75). -/
def Obligations.TotalIsRoundHalfUp : Prop :=
  ∀ (spr : Nat) (revs : Rat), totalSteps spr revs = ⌊revs * spr + 1 / 2⌋

/-- `STEPREV` of no revolutions, or of less than half a step either way, issues nothing (40_stepping R76). -/
def Obligations.SteprevBelowHalfStepDoesNothing : Prop :=
  ∀ (s : State) (revs : Rat) (d : Dir), s.busy = false → |revs| * s.cfg.spr < 1 / 2 → exec (.steprev revs d) s = .next s

/-- `STEPREV` of a negative count is `STEPREV` of its magnitude the other way, in every state (40_stepping R76). -/
def Obligations.SteprevNegativeFlipsDirection : Prop :=
  ∀ (s : State) (revs : Rat) (d : Dir), revs < 0 → exec (.steprev revs d) s = exec (.steprev (-revs) d.flip) s

/-- `STEPREV` of a positive count on an idle sequencer issues the `STEPCNT` of the rounded total, whose effect is the start
of that run (40_stepping R75, R76). -/
def Obligations.SteprevIssuesStepcnt : Prop :=
  ∀ (s : State) (revs : Rat) (d : Dir) (n : Word32), s.busy = false → 0 < revs → 0 < n.toInt →
    n.toInt = ⌊revs * s.cfg.spr + 1 / 2⌋ →
    exec (.steprev revs d) s = exec (.stepcnt n d) s ∧ exec (.steprev revs d) s = .next (startedRun s n d)

/-- A total above `2^31 - 1` is refused, by name (40_stepping R76). -/
def Obligations.SteprevLargeTotalRefused : Prop :=
  ∀ (s : State) (revs : Rat) (d : Dir), s.busy = false → 0 < revs → ⌊revs * s.cfg.spr + 1 / 2⌋ > 2 ^ 31 - 1 →
    exec (.steprev revs d) s = .refused .totalOutOfRange

/-! ### Runs -/

/-- The laws of a run of `n` transitions accepted with `DELAY = D` at time `t0`: `j` ticks into the hold after the `k`-th
transition the state is `runningState`, with the pin writes at `t0, t0 + D, …` and no others; after `n × D` ticks the run is
over (40_stepping R73). -/
def Obligations.RunMakesExactlyItsTransitions : Prop :=
  ∀ (s : State) (n : Word32) (d : Dir), s.busy = false → undisturbed s → 0 < n.toInt →
    ∃ t, exec (.stepcnt n d) s = .next t ∧
      (∀ k j : Nat, 1 ≤ k → k ≤ n.toNat → j ≤ s.delay.toNat →
        run ((k - 1) * (s.delay.toNat + 1) + j) t = .next (runningState s n d k j)) ∧
      run (n.toNat * (s.delay.toNat + 1)) t = .next (finishedRun s n d)

/-- From any moment of a run, the machine is idle after the rest of the hold and one hold for each transition left, and
not before (40_stepping R73 (c), (d), 95_test_vectors V8). -/
def Obligations.RunEndsFromAnyMoment : Prop :=
  ∀ s : State, undisturbed s → s.busy = true →
    (∃ t, run (s.hold.toNat + s.remain.toNat * (s.delay.toNat + 1) + 1) s = .next t ∧ t.busy = false ∧
      t.now = s.now + s.hold.toNat + s.remain.toNat * s.delay.toNat ∧
      t.phase = indexAfter s.phase s.dir s.remain.toNat ∧ t.remain = 0 ∧ t.hold = 0 ∧ t.dir = s.dir ∧ t.delay = s.delay) ∧
    ∀ k, k ≤ s.hold.toNat + s.remain.toNat * (s.delay.toNat + 1) → ∃ t, run k s = .next t ∧ t.busy = true

/-- A whole `STEP` command: from the line feed of a valid line to the answer. The pins are written exactly at the times of
the run, and the status line, `OK` and the indication follow its end, not before (42_wire_commands R81, R85, 40_stepping
R73, R76). -/
def Obligations.StepCommandRunsToItsAnswer : Prop :=
  ∀ (s : State) (rest line args : List Byte) (m : Rat) (f : Dir) (n : Word32),
    s.fe = .polling → s.busy = false → undisturbed s → s.rx = byteLf :: rest → bufferedLine s = some line →
    decodeLine line = .instr (.step args) → checkStep args = .ok (m, f) → 0 < n.toInt →
    n.toInt = ⌊m * s.cfg.spr + 1 / 2⌋ →
    (∃ t, run (n.toNat * (s.delay.toNat + 1) + 1) s = .next t ∧
      t = { finishedRun { s with rx := rest, llen := 0 } n f with fe := .awaiting m f }) ∧
    run (n.toNat * (s.delay.toNat + 1) + 2) s = .next
      { finishedRun { s with rx := rest, llen := 0 } n f with
        trace := (finishedRun s n f).trace ++ [.line (.stepStatus m f), .line .ok, .ind .success] }

/-- While a run is in progress a step changes no input, no part of the front end, neither `DELAY` nor `DIR`, and sends no
line and no indication (42_wire_commands R85, 40_stepping R73 (e), 30_encoding R48, 41_control R78). -/
def Obligations.RunLeavesFrontEndAndOperandsAlone : Prop :=
  ∀ s t : State, undisturbed s → s.busy = true → step s = .next t →
    t.rx = s.rx ∧ t.cmds = s.cmds ∧ t.llen = s.llen ∧ t.lbuf = s.lbuf ∧ t.fe = s.fe ∧ t.delay = s.delay ∧ t.dir = s.dir ∧
    (t.trace = s.trace ∨ ∃ v, t.trace = s.trace ++ [.pins s.now v])

/-- What the host sends or presents during a run has no effect on the run (30_encoding R48, 42_wire_commands R85). -/
def Obligations.RunIgnoresHostInput : Prop :=
  ∀ (s : State) (bytes : List Byte) (requests : List Request), undisturbed s → s.busy = true →
    ∃ t, step s = .next t ∧ step { s with rx := bytes } = .next { t with rx := bytes } ∧
      (s.fe = .absent → step { s with cmds := requests } = .next { t with cmds := requests })

/-- Once the input stops the machine comes to rest: from every state that meets the invariant, with no `rst`, no second
presenter and no bytes sent to a block without front end, some number of steps ends in the state of rest with an idle
sequencer, or in an input the spec marks `refuse` (70 R123, 60_exceptions R97). -/
def Obligations.MachineComesToRest : Prop :=
  ∀ s : State, Inv s → undisturbed s → (s.fe = .absent → s.rx = []) →
    ∃ k, (∃ t, run k s = .next t ∧ atRest t ∧ t.remain = 0 ∧ t.hold = 0) ∨
      ∃ r, run k s = .refused r ∧ r ≠ .secondPresenter ∧ ∀ name, r ≠ .notModelled name

/-! ### The wire commands -/

/-- `HEALTHCHECK`: every line of text whose normalised command token is that name, whatever its arguments; the answer is
`OK` and the success indication, and nothing else changes (42_wire_commands R79). -/
def Obligations.HealthcheckAnswersOk : Prop :=
  (∀ line : List Byte, line.all isText = true → upper (commandToken (trim line)) = nameHealthcheck →
    ∃ args, decodeLine line = .instr (.healthcheck args)) ∧
  ∀ (s : State) (args : List Byte), s.fe = .polling → s.busy = false →
    exec (.healthcheck args) s = .next { s with trace := s.trace ++ [.line .ok, .ind .success] }

/-- `PING`: every line of text whose normalised command token is that name, whatever its arguments; the answer is `PONG`
and the success indication, and nothing else changes (42_wire_commands R80). -/
def Obligations.PingAnswersPong : Prop :=
  (∀ line : List Byte, line.all isText = true → upper (commandToken (trim line)) = namePing →
    ∃ args, decodeLine line = .instr (.ping args)) ∧
  ∀ (s : State) (args : List Byte), s.fe = .polling → s.busy = false →
    exec (.ping args) s = .next { s with trace := s.trace ++ [.line .pong, .ind .success] }

/-- The unknown token: every line of text whose normalised token is not empty and no registered name; the answer is the
error line with that token and the failure indication, and nothing else changes (42_wire_commands R83, 60_exceptions
R88, R89). -/
def Obligations.UnknownTokenIsReported : Prop :=
  (∀ line : List Byte, line.all isText = true → trim line ≠ [] →
    upper (commandToken (trim line)) ∉ registeredNames →
    ∃ args, decodeLine line = .instr (.unknown (upper (commandToken (trim line))) args)) ∧
  (∀ token : List Byte, Response.text (.unknownCommand token) =
    ascii ['E', 'R', 'R', ':', 'U', 'N', 'K', 'N', 'O', 'W', 'N', ' ', 'C', 'O', 'M', 'M', 'A', 'N', 'D', ' '] ++
      [0x27] ++ token ++ [0x27]) ∧
  ∀ (s : State) (token args : List Byte), s.fe = .polling → s.busy = false →
    exec (.unknown token args) s = .next { s with trace := s.trace ++ [.line (.unknownCommand token), .ind .failure] }

/-- `STEP` with a magnitude above 0 and a flag 0 or 1 whose total is positive: the run starts, in the direction of the
flag, and the front end waits (42_wire_commands R81). -/
def Obligations.StepStartsItsRun : Prop :=
  ∀ (s : State) (args t u : List Byte) (m : Rat) (flag : Bool) (n : Word32), s.fe = .polling → s.busy = false →
    tokens args = [t, u] → parseReal t = .value m → 0 < m → parseInt u = .value (if flag then 1 else 0) →
    0 < n.toInt → n.toInt = ⌊m * s.cfg.spr + 1 / 2⌋ →
    exec (.step args) s = .next (startedRun { s with fe := .awaiting m (if flag then .forward else .backward) } n
      (if flag then .forward else .backward))

/-- A valid `STEP` that rounds to no transition answers at once and changes no register (42_wire_commands R81, 40_stepping
R76). -/
def Obligations.StepOfNoTransitionAnswersAtOnce : Prop :=
  ∀ (s : State) (args t u : List Byte) (m : Rat) (flag : Bool), s.fe = .polling → s.busy = false →
    tokens args = [t, u] → parseReal t = .value m → 0 < m → parseInt u = .value (if flag then 1 else 0) →
    m * s.cfg.spr < 1 / 2 →
    exec (.step args) s = .next { s with trace := s.trace ++
      [.line (.stepStatus m (if flag then .forward else .backward)), .line .ok, .ind .success] }

/-- When the run of a `STEP` is over the next step sends the status line, `OK` and the success indication, and the front
end polls on (42_wire_commands R81, R85). -/
def Obligations.StepAnswersAfterItsRun : Prop :=
  ∀ (s : State) (m : Rat) (f : Dir), undisturbed s → s.busy = false → s.fe = .awaiting m f →
    step s = .next { s with
      fe := .polling, trace := s.trace ++ [.line (.stepStatus m f), .line .ok, .ind .success] }

/-- Every cause of `StepUsage`, each alone enough: the answer is the usage line and the failure indication, and nothing
else changes (60_exceptions R90, 42_wire_commands R81). A token of the grey zone is not a cause: it is refused. -/
def Obligations.StepUsageCauses : Prop :=
  ∀ (s : State) (args : List Byte), s.fe = .polling → s.busy = false →
    ((tokens args).length ≠ 2 ∨
      ∃ t u, tokens args = [t, u] ∧ (∀ r, parseReal t ≠ .refused r) ∧ (∀ r, parseInt u ≠ .refused r) ∧
        (parseReal t = .failure ∨ (∃ m, parseReal t = .value m ∧ m ≤ 0) ∨ parseInt u = .failure ∨
          ∃ f, parseInt u = .value f ∧ f ≠ 0 ∧ f ≠ 1)) →
    exec (.step args) s = .next { s with trace := s.trace ++ [.line .stepUsage, .ind .failure] }

/-- `SPEED` with one integer token above 0: `DELAY` has that value, the status line, `OK` and the success indication
follow, and nothing else changes (42_wire_commands R82). -/
def Obligations.SpeedSetsDelay : Prop :=
  ∀ (s : State) (args t : List Byte) (u : Int), s.fe = .polling → s.busy = false →
    tokens args = [t] → parseInt t = .value u → 0 < u →
    ∃ v : Word32, v.toInt = u ∧ exec (.speed args) s = .next { s with
      delay := v, trace := s.trace ++ [.line (.speedStatus u), .line .ok, .ind .success] }

/-- Every cause of `SpeedUsage`: the answer is the usage line and the failure indication, and nothing else changes
(60_exceptions R91, 42_wire_commands R82). -/
def Obligations.SpeedUsageCauses : Prop :=
  ∀ (s : State) (args : List Byte), s.fe = .polling → s.busy = false →
    (tokens args = [] ∨ ∃ t, tokens args = [t] ∧
      (parseInt t = .failure ∨ ∃ u, parseInt t = .value u ∧ u ≤ 0)) →
    exec (.speed args) s = .next { s with trace := s.trace ++ [.line .speedUsage, .ind .failure] }

/-- What the spec marks `refuse` is refused by name: a refused token of a `STEP` or a `SPEED`, a `SPEED` of two or more
tokens, a `STEP` whose total is above `2^31 - 1`, a line that is not ASCII text (30_encoding R60, R62 to R64,
42_wire_commands R81, R82, 40_stepping R76). -/
def Obligations.MarkedInputsAreRefused : Prop :=
  ∀ (s : State), s.fe = .polling → s.busy = false →
    (∀ args t u r, tokens args = [t, u] → parseReal t = .refused r → exec (.step args) s = .refused r) ∧
    (∀ args t u r, tokens args = [t, u] → (∀ q, parseReal t ≠ .refused q) → parseInt u = .refused r →
      exec (.step args) s = .refused r) ∧
    (∀ args m f, checkStep args = .ok (m, f) → ⌊m * s.cfg.spr + 1 / 2⌋ > 2 ^ 31 - 1 →
      exec (.step args) s = .refused .totalOutOfRange) ∧
    (∀ args t r, tokens args = [t] → parseInt t = .refused r → exec (.speed args) s = .refused r) ∧
    (∀ args, 2 ≤ (tokens args).length → exec (.speed args) s = .refused .speedExtraTokens) ∧
    (∀ line rest, undisturbed s → s.rx = byteLf :: rest → bufferedLine s = some line → line.all isText = false →
      step s = .refused .lineNotAscii)

/-- The tokens of an argument string are its maximal runs of bytes outside `WS`; the empty string has none (30_encoding
R62). The clauses determine the tokens of every string. -/
def Obligations.TokensAreMaximalRuns : Prop :=
  tokens [] = [] ∧
  (∀ args t, t ∈ tokens args → t ≠ [] ∧ t.all (fun b => !isWs b) = true) ∧
  (∀ pre : List Byte, pre.all isWs = true → ∀ args, tokens (pre ++ args) = tokens args) ∧
  (∀ t : List Byte, t ≠ [] → t.all (fun b => !isWs b) = true → tokens t = [t] ∧
    ∀ w args, isWs w = true → tokens (t ++ w :: args) = t :: tokens args)

/-- A token that is a `real` in full has the value its decimal notation spells (30_encoding R63). The sign is `sign`, the
digits before the point `whole`, after it `frac`. -/
def Obligations.RealTokenHasItsValue : Prop :=
  ∀ sign whole frac : List Byte, sign = [] ∨ sign = [0x2B] ∨ sign = [0x2D] →
    whole.all isDigit = true → frac.all isDigit = true →
    (whole ≠ [] → parseReal (sign ++ whole) =
      .value ((if sign = [0x2D] then -1 else 1) * (digitsValue whole : Rat))) ∧
    (whole ≠ [] ∨ frac ≠ [] → parseReal (sign ++ whole ++ 0x2E :: frac) =
      .value ((if sign = [0x2D] then -1 else 1) * (digitsValue whole + digitsValue frac / 10 ^ frac.length : Rat)))

/-- A token that is an `int` in full has the value its decimal notation spells if that fits 32 bits, and is refused if it
does not (30_encoding R64). -/
def Obligations.IntTokenHasItsValue : Prop :=
  ∀ sign digits : List Byte, sign = [] ∨ sign = [0x2B] ∨ sign = [0x2D] → digits ≠ [] → digits.all isDigit = true →
    parseInt (sign ++ digits) =
      (if -2 ^ 31 ≤ (if sign = [0x2D] then -1 else 1) * (digitsValue digits : Int) ∧
          (if sign = [0x2D] then -1 else 1) * (digitsValue digits : Int) ≤ 2 ^ 31 - 1
        then .value ((if sign = [0x2D] then -1 else 1) * (digitsValue digits : Int))
        else .refused .integerOutOfRange)

/-- A token with a numeric prefix and trailing matter, and the names `inf`, `infinity`, `nan` in any case with an optional
sign, are refused; a token without a numeric prefix that is none of these fails (30_encoding R63, R64). That the names are
refused as integer tokens too is the model's reading of U2 (log 15). -/
def Obligations.GreyNumbersAndFailures : Prop :=
  ∀ (sign digits : List Byte) (b : Byte) (more : List Byte), sign = [] ∨ sign = [0x2B] ∨ sign = [0x2D] →
    digits.all isDigit = true → isDigit b = false →
    (digits ≠ [] → parseInt (sign ++ digits ++ b :: more) = .refused .greyNumber) ∧
    (digits ≠ [] → b ≠ 0x2E → parseReal (sign ++ digits ++ b :: more) = .refused .greyNumber) ∧
    (∀ frac, digits ≠ [] ∨ frac ≠ [] → frac.all isDigit = true →
      parseReal (sign ++ digits ++ 0x2E :: (frac ++ b :: more)) = .refused .greyNumber) ∧
    (∀ t, upper t = ascii ['I', 'N', 'F'] ∨ upper t = ascii ['N', 'A', 'N'] ∨
        upper t = ascii ['I', 'N', 'F', 'I', 'N', 'I', 'T', 'Y'] →
      parseReal (sign ++ t) = .refused .greyNumber ∧ parseInt (sign ++ t) = .refused .greyNumber) ∧
    ((sign = [] → b ≠ 0x2B ∧ b ≠ 0x2D) → isSpecial (sign ++ b :: more) = false →
      parseInt (sign ++ b :: more) = .failure ∧
      (b ≠ 0x2E ∨ digitsOf more = [] → parseReal (sign ++ b :: more) = .failure)) ∧
    parseInt sign = .failure ∧ parseReal sign = .failure

/-- The texts of the responses, byte for byte; the usage text of `STEP` has 32 characters (30_encoding R65, 60_exceptions
R89 to R91). -/
def Obligations.ResponseTexts : Prop :=
  Response.text .ok = [0x4F, 0x4B] ∧ Response.text .pong = [0x50, 0x4F, 0x4E, 0x47] ∧
  Response.text .stepUsage = [0x45, 0x52, 0x52, 0x3A, 0x53, 0x54, 0x45, 0x50, 0x20, 0x75, 0x73, 0x61, 0x67, 0x65, 0x20,
    0x53, 0x54, 0x45, 0x50, 0x20, 0x3C, 0x72, 0x65, 0x76, 0x73, 0x3E, 0x20, 0x3C, 0x30, 0x7C, 0x31, 0x3E] ∧
  (Response.text .stepUsage).length = 32 ∧
  Response.text .speedUsage = [0x45, 0x52, 0x52, 0x3A, 0x53, 0x50, 0x45, 0x45, 0x44, 0x20, 0x75, 0x73, 0x61, 0x67, 0x65,
    0x20, 0x53, 0x50, 0x45, 0x45, 0x44, 0x20, 0x3C, 0x70, 0x6F, 0x73, 0x69, 0x74, 0x69, 0x76, 0x65, 0x5F, 0x64, 0x65,
    0x6C, 0x61, 0x79, 0x5F, 0x75, 0x73, 0x3E] ∧
  (∀ m f, Response.text (.stepStatus m f) = [0x45, 0x56, 0x45, 0x4E, 0x54, 0x3A] ++ Config.statusStep m f) ∧
  (∀ u, Response.text (.speedStatus u) = [0x45, 0x56, 0x45, 0x4E, 0x54, 0x3A] ++ Config.statusSpeed u) ∧
  (∀ spr, Response.text (.startup spr) = [0x45, 0x56, 0x45, 0x4E, 0x54, 0x3A] ++ Config.startupText spr) ∧
  Indication.duration .failure < Indication.duration .success

/-- Every line whose processing ends in an error changes nothing but the transmit stream and the indicator: whatever the
instruction, if the answer ends with a failure indication, it is one `ERR:` line and that indication, and every register is
as before (42_wire_commands R86, 60_exceptions R88). -/
def Obligations.RejectedCommandChangesNothing : Prop :=
  ∀ (i : Instr) (s t : State) (os : List Output), exec i s = .next t → t.trace = s.trace ++ os ++ [.ind .failure] →
    ∃ r, os = [.line r] ∧ (r = .stepUsage ∨ r = .speedUsage ∨ ∃ token, r = .unknownCommand token) ∧
      t = { s with trace := s.trace ++ [.line r, .ind .failure] }

/-! ### Frames -/

/-- The frame of the port operations: what `STEPCNT`, `SETDELAY` and `STEPREV` leave unchanged; only `SETDELAY` writes
`DELAY`, and it writes nothing else; every byte of the line buffer reads as before (40_stepping R71, R76, 41_control R77). -/
def Obligations.PortOperationsFrame : Prop :=
  (∀ (s t : State) (n : Word32) (d : Dir) (revs : Rat),
    exec (.stepcnt n d) s = .next t ∨ exec (.steprev revs d) s = .next t →
    t.delay = s.delay ∧ t.llen = s.llen ∧ t.lbuf = s.lbuf ∧ (∀ a, Memory.read t.lbuf a = Memory.read s.lbuf a) ∧
    t.fe = s.fe ∧ t.cfg = s.cfg ∧ t.rx = s.rx ∧ t.cmds = s.cmds ∧ t.rst = s.rst ∧ t.now = s.now ∧ t.draws = s.draws ∧
    linesOf t.trace = linesOf s.trace ∧
    (t = s ∨ (t.busy = true ∧ t.phase = nextIndex s.phase t.dir ∧ t.gpio = memRead s.cfg.table t.phase ∧
      pinWrites t.trace = pinWrites s.trace ++ [(s.now, t.gpio)]))) ∧
  ∀ (s t : State) (us : Word32), exec (.setdelay us) s = .next t → t = { s with delay := t.delay }

/-- The frame of the wire commands. `HEALTHCHECK`, `PING` and the unknown token change the record of outputs only; `SPEED`
changes that and `DELAY`; `STEP` leaves `DELAY`, the line buffer, the parameters, the inputs and the clock alone, and
changes sequencer registers only when it starts a run (42_wire_commands R79 to R83). Every byte of the line buffer reads as
before. -/
def Obligations.WireCommandsFrame : Prop :=
  (∀ (s t : State) (token args : List Byte),
    exec (.healthcheck args) s = .next t ∨ exec (.ping args) s = .next t ∨ exec (.unknown token args) s = .next t →
    t = { s with trace := t.trace } ∧ pinWrites t.trace = pinWrites s.trace) ∧
  (∀ (s t : State) (args : List Byte), exec (.speed args) s = .next t →
    t = { s with delay := t.delay, trace := t.trace } ∧ pinWrites t.trace = pinWrites s.trace) ∧
  (∀ (s t : State) (args : List Byte), exec (.step args) s = .next t →
    t.delay = s.delay ∧ t.llen = s.llen ∧ (∀ a, Memory.read t.lbuf a = Memory.read s.lbuf a) ∧ t.lbuf = s.lbuf ∧
    t.cfg = s.cfg ∧ t.rx = s.rx ∧ t.cmds = s.cmds ∧ t.rst = s.rst ∧ t.now = s.now ∧ t.draws = s.draws ∧
    (t = { s with trace := t.trace } ∨ (s.busy = false ∧ t.busy = true ∧ linesOf t.trace = linesOf s.trace)))

/-! ### Steps of the whole machine -/

/-- A step of an idle block at the port runs the decoded request (30_encoding R47, R48). -/
def Obligations.PortStepRunsDecodedRequest : Prop :=
  ∀ (s : State) (r : Request) (rest : List Request), s.rst = false → s.busy = false → s.fe = .absent →
    s.cmds = r :: rest → step s = exec (decodeRequest r) { s with cmds := rest }

/-- A step at the line feed of a line that decodes to an instruction runs it, with the line feed consumed and the buffer
reset; a line that trims to nothing is discarded (30_encoding R54, R56, R59). -/
def Obligations.LineStepRunsDecodedCommand : Prop :=
  ∀ (s : State) (line rest : List Byte), undisturbed s → s.busy = false → s.fe = .polling → s.rx = byteLf :: rest →
    bufferedLine s = some line →
    (∀ i, decode (.line line) = .instr i → step s = exec i { s with rx := rest, llen := 0 }) ∧
    (decode (.line line) = .empty → step s = .next { s with rx := rest, llen := 0 })

/-- A table word placed for the next step is run by it, from every state: the step is `exec` of the decoded instruction in
an idle state in which it takes effect, a port operation at a block without front end, a wire command at a polling one (the placing is the model's, log 1 and log 22). -/
def Obligations.FetchedTableWordIsRun : Prop :=
  ∀ (s : State) (nbits w : Nat) (i : Instr), decodeTableWord nbits w = some i → Memory.wf s.lbuf →
    ∃ t : State, step (s.withFetchWord nbits w) = exec i t ∧ t.busy = false ∧
      t.fe = (match encode i with | .port _ => .absent | .line _ => .polling) ∧
      t.phase = s.phase ∧ t.dir = s.dir ∧ t.delay = s.delay ∧ t.gpio = s.gpio ∧ t.cfg = s.cfg

/-- After reset the registers have the values of 70 R106, the front end is at the start of a line, and `cmd_ready = 1`. -/
def Obligations.ResetRegisters : Prop :=
  State.reset.phase = 0 ∧ State.reset.dir = .forward ∧ State.reset.delay = 5000 ∧ State.reset.remain = 0 ∧
  State.reset.hold = 0 ∧ State.reset.busy = false ∧ State.reset.gpio = 0b0000 ∧ State.reset.llen = 0 ∧
  cmdReady State.reset = true ∧ phaseOf State.reset = .idle ∧ State.reset.cfg = Config.params ∧
  ∀ p, pin State.reset p = false

/-- `rst` at any moment, a run included, forces the registers of reset at once; the parameters stay (70 R107, R106, R109,
10_state R23). What it does to the inputs is the model's (log 10). -/
def Obligations.RstForcesResetState : Prop :=
  ∀ s : State, s.rst = true → ∃ t, step s = .next t ∧
    t.phase = State.reset.phase ∧ t.dir = State.reset.dir ∧ t.delay = State.reset.delay ∧ t.remain = State.reset.remain ∧
    t.hold = State.reset.hold ∧ t.busy = State.reset.busy ∧ t.gpio = State.reset.gpio ∧ t.llen = 0 ∧ t.cfg = s.cfg ∧
    t.rst = false ∧ (t.fe = .absent ∨ t.fe = .booting) ∧ (t.fe = .absent ↔ s.fe = .absent)

/-- The first step of a front end after reset sends the one startup line, which reports `SPR`, and changes no register
(70 R110). -/
def Obligations.StartupLineComesFirst : Prop :=
  ∀ s : State, undisturbed s → s.busy = false → s.fe = .booting →
    step s = .next { s with fe := .polling, trace := s.trace ++ [.line (.startup s.cfg.spr)] }

/-- A presenter at the port of a machine whose front end is present is not admitted (70 R124), and the spec gives no effect:
that the step is refused, under this name, is the model's choice (log 7). -/
def Obligations.SecondPresenterIsRefused : Prop :=
  ∀ (s : State) (r : Request) (rest : List Request), s.rst = false → s.fe ≠ .absent → s.cmds = r :: rest →
    step s = .refused .secondPresenter

/-- A step moves `PHASE` to one of its two neighbours, with the row at the new index on the pins in one write, or changes
neither `PHASE` nor the pins and writes no pin (20_memory R38, R39, 40_stepping R67, R68). -/
def Obligations.PhaseAndPinsMoveTogether : Prop :=
  ∀ s t : State, s.rst = false → step s = .next t →
    (t.phase = s.phase ∧ t.gpio = s.gpio ∧ pinWrites t.trace = pinWrites s.trace) ∨
    (t.phase = nextIndex s.phase t.dir ∧ t.gpio = memRead s.cfg.table t.phase ∧
      pinWrites t.trace = pinWrites s.trace ++ [(s.now, t.gpio)])

/-- No step and no move of the host writes `SPR` or `TABLE`; no move of the host writes a register; a byte sent goes to the
end of the unread bytes while there is room, and beyond it is kept or lost (10_state R23, R24, R28, 20_memory R42,
70 R118, R124). -/
def Obligations.HostAndConstants : Prop :=
  (∀ s t : State, step s = .next t → t.cfg = s.cfg) ∧
  (∀ (s : State) (m : HostMove), hostMove m s =
    { s with rx := (hostMove m s).rx, cmds := (hostMove m s).cmds, rst := (hostMove m s).rst,
             draws := (hostMove m s).draws }) ∧
  (∀ (s : State) (b : Byte), (hostMove (.send b) s).rx = s.rx ++ [b] ∨
    (Config.rxCap ≤ s.rx.length ∧ (hostMove (.send b) s).rx = s.rx))

/-! ### Invariants -/

/-- The invariant holds after reset, whatever the parameters, with or without a front end (70 R106, 40_stepping R72). -/
def Obligations.ResetSatisfiesInv : Prop :=
  Inv State.reset ∧ ∀ (p : Params) (fe : Bool), 0 < p.spr → p.table.admissible = true → Inv (freshState p fe)

/-- Every step keeps the invariant: the bounds of the registers, the idle clauses, the canonical line buffer, the pins on
the row of `PHASE` (40_stepping R72, 10_state R17, R18, R22, R26). -/
def Obligations.StepKeepsInv : Prop := ∀ s t : State, Inv s → step s = .next t → Inv t

/-- Every state of every run, with the host's moves anywhere in it, meets the invariant, and its next step is no fault
(60_exceptions R97, 40_stepping R72). -/
def Obligations.ReachableStatesAreSafe : Prop := ∀ s : State, Reachable s → Inv s ∧ faultFree s

/-- In a state that meets the invariant a step faults in no case, and it is refused only for what the spec marks `refuse`
or does not admit (60_exceptions R97). -/
def Obligations.InvStatesNeverFault : Prop :=
  ∀ s : State, Inv s → (∀ r, step s ≠ .fault r) ∧ ∀ name, step s ≠ .refused (.notModelled name)

/-- From the first transition on, the pins light one coil or two adjacent ones, for every admissible table, and two
successive rows differ in how many (20_memory R33 (b), (c), 60_exceptions R103); `admissible` reads R33 (d) as log 29 says. -/
def Obligations.PinsLightOneOrTwoCoils : Prop :=
  ∀ s : State, Inv s → ¬ (s.gpio = 0 ∧ s.phase = 0 ∧ s.busy = false) →
    s.gpio.adjacentPairs = true ∧
    (s.gpio).onCount ≠ Row.onCount (memRead s.cfg.table (nextIndex s.phase .forward)) ∧
    (s.gpio).onCount ≠ Row.onCount (memRead s.cfg.table (nextIndex s.phase .backward))
end

