-- ==== Sys2Proof/Laws/Decode.lean ====
section
/-! SUPPORT. What the decoder can find. -/

namespace Sys2Proof

/-- The instructions that a line stands for. -/
def Instr.isLine : Instr → Bool
  | .stepcnt _ _ => false
  | .setdelay _ => false
  | .steprev _ _ => false
  | .healthcheck _ => true
  | .ping _ => true
  | .step _ => true
  | .speed _ => true
  | .unknown _ _ => true

theorem dispatch_isLine (token args : List Byte) : (dispatch token args).isLine = true := by
  unfold dispatch; repeat (first | rfl | split)

/-- A line never stands for a port operation. -/
theorem decodeLine_isLine {l : List Byte} {i : Instr} (h : decodeLine l = .instr i) : i.isLine = true := by
  unfold decodeLine at h
  split at h
  · split at h
    · simp at h
    · cases h; exact dispatch_isLine _ _
  · simp at h

/-- A port request never stands for a wire command. -/
theorem decodeRequest_isLine (r : Request) : (decodeRequest r).isLine = false := by
  cases r with
  | word w => unfold decodeRequest decodeWord; dsimp only; split <;> rfl
  | call revs dir => rfl

/-! ### The fields of a port word -/

/-- A port word as a number (30_encoding R49). -/
theorem portWord_toNat (op dir : BitVec 1) (arg : Word32) :
    (portWord op dir arg).toNat = op.toNat * 2 ^ 33 + dir.toNat * 2 ^ 32 + arg.toNat := by
  have h : (portWord op dir arg).toNat = ((op ++ dir) ++ arg : BitVec (1 + 1 + 32)).toNat := rfl
  have ha := arg.isLt
  have hd := dir.isLt
  rw [h, BitVec.toNat_append, BitVec.toNat_append, ← Nat.shiftLeft_add_eq_or_of_lt ha,
    ← Nat.shiftLeft_add_eq_or_of_lt hd]
  simp only [Nat.shiftLeft_eq]
  ring

theorem portWord_arg (op dir : BitVec 1) (arg : Word32) : (portWord op dir arg).extractLsb' 0 32 = arg := by
  apply BitVec.eq_of_toNat_eq
  have ha := arg.isLt
  rw [BitVec.extractLsb'_toNat, portWord_toNat]
  simp only [Nat.shiftRight_zero]
  omega

theorem getLsbD_eq_div {n : Nat} (x : BitVec n) (i : Nat) : x.getLsbD i = decide (x.toNat / 2 ^ i % 2 = 1) := by
  rw [BitVec.getLsbD, Nat.testBit_eq_decide_div_mod_eq]

theorem portWord_op (op dir : BitVec 1) (arg : Word32) : (portWord op dir arg).getLsbD 33 = (op == 1) := by
  have ha := arg.isLt
  have hd := dir.isLt
  rw [getLsbD_eq_div, portWord_toNat,
    show (op.toNat * 2 ^ 33 + dir.toNat * 2 ^ 32 + arg.toNat) / 2 ^ 33 = op.toNat by omega]
  revert op
  decide

theorem portWord_dir (op dir : BitVec 1) (arg : Word32) : (portWord op dir arg).getLsbD 32 = (dir == 1) := by
  have ha := arg.isLt
  have hd := dir.isLt
  have ho := op.isLt
  rw [getLsbD_eq_div, portWord_toNat,
    show (op.toNat * 2 ^ 33 + dir.toNat * 2 ^ 32 + arg.toNat) / 2 ^ 32 % 2 = dir.toNat by omega]
  revert dir
  decide

/-- A port word decodes by its three fields (30_encoding R49 to R51). -/
theorem decodeWord_portWord (op dir : BitVec 1) (arg : Word32) :
    decodeWord (portWord op dir arg) = if op == 1 then .setdelay arg else .stepcnt arg (Dir.ofBit (dir == 1)) := by
  simp only [decodeWord, portWord_op, portWord_dir, portWord_arg]

end Sys2Proof
end

