-- ==== Sys2Proof/Laws/Lines.lean ====
section
/-! SUPPORT. Trimming, the command token and the argument string of a line (30_encoding R56, R57). -/

namespace Sys2Proof

theorem dropWhile_append_of_all {p : Byte → Bool} {l m : List Byte} (h : l.all p = true) :
    (l ++ m).dropWhile p = m.dropWhile p := by
  induction l with
  | nil => rfl
  | cons a l ih =>
    simp only [List.all_cons, Bool.and_eq_true] at h
    simp [h.1, ih h.2]

theorem dropWhile_of_all {p : Byte → Bool} {l : List Byte} (h : l.all p = true) : l.dropWhile p = [] := by
  simpa using dropWhile_append_of_all (m := []) h

/-- Trailing `WS` bytes removed. -/
def trimRight (l : List Byte) : List Byte := (l.reverse.dropWhile isWs).reverse

theorem trim_eq (l : List Byte) : trim l = trimRight (l.dropWhile isWs) := rfl

theorem trimRight_append_ws {l post : List Byte} (h : post.all isWs = true) : trimRight (l ++ post) = trimRight l := by
  unfold trimRight
  rw [List.reverse_append, dropWhile_append_of_all (by simpa using h)]

theorem trimRight_append_byte {l : List Byte} {b : Byte} (h : isWs b = false) : trimRight (l ++ [b]) = l ++ [b] := by
  simp [trimRight, h]

/-- What `trimRight` removes. -/
theorem trimRight_split (l : List Byte) : ∃ post : List Byte, post.all isWs = true ∧ l = trimRight l ++ post := by
  refine ⟨(l.reverse.takeWhile isWs).reverse, by simp, ?_⟩
  unfold trimRight
  rw [← List.reverse_append, List.takeWhile_append_dropWhile, List.reverse_reverse]

/-- Padding does not change what trimming leaves (30_encoding R56). -/
theorem trim_padding {pre l post : List Byte} (h1 : pre.all isWs = true) (h2 : post.all isWs = true) :
    trim (pre ++ l ++ post) = trim l := by
  rw [List.append_assoc, trim_eq, dropWhile_append_of_all h1, trim_eq]
  induction l with
  | nil => rw [List.nil_append, dropWhile_of_all h2]; rfl
  | cons a l ih =>
    by_cases ha : isWs a = true
    · simpa [ha] using ih
    · simp only [List.cons_append, List.dropWhile_cons, ha]
      exact trimRight_append_ws (l := a :: l) h2

theorem trim_trimRight (l : List Byte) : trim (trimRight l) = trim l := by
  obtain ⟨post, hp, e⟩ := trimRight_split l
  conv_rhs => rw [e]
  exact (trim_padding (pre := []) rfl hp).symm

theorem trim_of_ws {l : List Byte} (h : l.all isWs = true) : trim l = [] := by
  rw [trim_eq, dropWhile_of_all h]; rfl

/-- A token is trimmed already. -/
theorem trimRight_token_append {t l : List Byte} (ht : t ≠ []) (h : t.all (fun b => !isWs b) = true) :
    trimRight (t ++ l) = t ++ trimRight l := by
  obtain ⟨post, hp, e⟩ := trimRight_split l
  by_cases hl : trimRight l = []
  · rw [hl, List.nil_append] at e
    rw [hl, List.append_nil, e, trimRight_append_ws hp]
    obtain ⟨u, b, rfl⟩ := List.eq_nil_or_concat t |>.resolve_left ht
    simp only [List.concat_eq_append] at h ⊢
    exact trimRight_append_byte (by simp at h; exact h.2)
  · conv_lhs => rw [e]
    rw [← List.append_assoc, trimRight_append_ws hp]
    obtain ⟨u, b, hu⟩ := List.eq_nil_or_concat (trimRight l) |>.resolve_left hl
    have hb : isWs b = false := by
      have h0 := congrArg List.reverse hu
      simp only [trimRight, List.reverse_reverse, List.concat_eq_append, List.reverse_append, List.reverse_cons,
        List.reverse_nil, List.nil_append, List.cons_append] at h0
      have h1 := List.head?_dropWhile_not isWs l.reverse
      rw [h0] at h1
      simpa using h1
    rw [hu, List.concat_eq_append, ← List.append_assoc]
    exact trimRight_append_byte hb

theorem dropWhile_token_append {t l : List Byte} (ht : t ≠ []) (h : t.all (fun b => !isWs b) = true) :
    (t ++ l).dropWhile isWs = t ++ l := by
  obtain ⟨a, u, rfl⟩ := List.exists_cons_of_ne_nil ht
  simp only [List.all_cons, Bool.and_eq_true, Bool.not_eq_true'] at h
  simp [h.1]

/-- A line that begins with a token trims to that token and the trimmed rest. -/
theorem trim_token_append {t l : List Byte} (ht : t ≠ []) (h : t.all (fun b => !isWs b) = true) :
    trim (t ++ l) = t ++ trimRight l := by
  rw [trim_eq, dropWhile_token_append ht h, trimRight_token_append ht h]

theorem trim_token {t : List Byte} (ht : t ≠ []) (h : t.all (fun b => !isWs b) = true) : trim t = t := by
  have := trim_token_append (l := []) ht h
  simpa [trimRight] using this

theorem takeWhile_token_append {t l : List Byte} (h : t.all (fun b => !isWs b) = true)
    (hl : l = [] ∨ ∃ w m, isWs w = true ∧ l = w :: m) : commandToken (t ++ l) = t := by
  unfold commandToken
  induction t with
  | nil =>
    rcases hl with rfl | ⟨w, m, hw, rfl⟩
    · rfl
    · simp [hw]
  | cons a t ih =>
    simp only [List.all_cons, Bool.and_eq_true] at h
    simp [h.1, ih h.2]

theorem dropWhile_token_space {t l : List Byte} (h : t.all (fun b => !isWs b) = true)
    (hl : l = [] ∨ ∃ w m, isWs w = true ∧ l = w :: m) : (t ++ l).dropWhile (fun b => !isWs b) = l := by
  rw [dropWhile_append_of_all h]
  rcases hl with rfl | ⟨w, m, hw, rfl⟩
  · rfl
  · simp [hw]

theorem trimRight_space_cons {w : Byte} (hw : isWs w = true) (args : List Byte) :
    trimRight (w :: args) = [] ∨ ∃ v m, isWs v = true ∧ trimRight (w :: args) = v :: m := by
  obtain ⟨post, -, e⟩ := trimRight_split (w :: args)
  rcases h : trimRight (w :: args) with _ | ⟨a, m⟩
  · exact .inl rfl
  · rw [h, List.cons_append] at e
    injection e with e1 e2
    exact .inr ⟨a, m, e1 ▸ hw, rfl⟩

/-- The command token and the argument string of a token, a `WS` byte and the rest (30_encoding R57). -/
theorem token_and_args {t args : List Byte} {w : Byte} (ht : t ≠ []) (h : t.all (fun b => !isWs b) = true)
    (hw : isWs w = true) :
    commandToken (trim (t ++ w :: args)) = t ∧ argString (trim (t ++ w :: args)) = trim args := by
  rw [trim_token_append ht h]
  refine ⟨takeWhile_token_append h (trimRight_space_cons hw args), ?_⟩
  unfold argString
  rw [dropWhile_token_space h (trimRight_space_cons hw args), trim_trimRight]
  have := trim_padding (pre := [w]) (post := []) (l := args) (by simp [hw]) rfl
  simpa using this

/-- A line of one token has no argument string. -/
theorem token_alone {t : List Byte} (ht : t ≠ []) (h : t.all (fun b => !isWs b) = true) :
    commandToken (trim t) = t ∧ argString (trim t) = [] := by
  rw [trim_token ht h]
  have h1 := takeWhile_token_append (l := []) h (.inl rfl)
  have h2 := dropWhile_token_space (l := []) h (.inl rfl)
  rw [List.append_nil] at h1 h2
  exact ⟨h1, by rw [argString, h2]; rfl⟩

theorem isText_of_isWs {b : Byte} (h : isWs b = true) : isText b = true := by
  revert b; decide

end Sys2Proof
end

