-- ==== Sys2Proof/Laws/Memory.lean ====
section
/-! SUPPORT. The laws of byte memory: a read after a write, and the canonical form. -/

namespace Sys2Proof.Machine

theorem Memory.read_eq_blank {m : Memory} {a : Nat} (h : ∀ c ∈ m, a < c.1) : Memory.read m a = blankByte := by
  induction m with
  | nil => rfl
  | cons c m ih =>
    have h1 : c.1 ≠ a := Nat.ne_of_gt (h c (by simp))
    simp only [Memory.read, h1, if_false]
    exact ih fun d hd => h d (by simp [hd])

/-- A read after a write to the same place gives the value written. -/
theorem Memory.read_write_same {m : Memory} (hm : m.Pairwise (fun c d => c.1 < d.1)) (a : Nat) (v : Byte) :
    Memory.read (Memory.write m a v) a = v := by
  induction m with
  | nil => by_cases hv : v = blankByte <;> simp [Memory.write, Memory.read, hv]
  | cons c m ih =>
    obtain ⟨k, x⟩ := c
    obtain ⟨hlt, hm'⟩ := List.pairwise_cons.mp hm
    simp only [Memory.write]
    split
    · next hak =>
      split
      · next hv =>
        rw [hv]
        refine Memory.read_eq_blank fun c hc => ?_
        rcases List.mem_cons.mp hc with rfl | hc
        · exact hak
        · exact hak.trans (hlt c hc)
      · simp [Memory.read]
    · split
      · next hne hak =>
        split
        · next hv => rw [hv]; exact Memory.read_eq_blank fun c hc => hak ▸ hlt c hc
        · simp [Memory.read]
      · next hne hak => simp only [Memory.read, Ne.symm hak, if_false]; exact ih hm'

/-- A write leaves every other place alone. -/
theorem Memory.read_write_other {m : Memory} {a b : Nat} (v : Byte) (hab : a ≠ b) :
    Memory.read (Memory.write m a v) b = Memory.read m b := by
  induction m with
  | nil => by_cases hv : v = blankByte <;> simp [Memory.write, Memory.read, hv, hab]
  | cons c m ih =>
    obtain ⟨k, x⟩ := c
    simp only [Memory.write]
    split
    · split
      · rfl
      · simp [Memory.read, hab]
    · split
      · next hak => subst hak; split <;> simp [Memory.read, hab]
      · simp only [Memory.read]; split
        · rfl
        · exact ih

theorem Memory.mem_write {m : Memory} {a : Nat} {v : Byte} {c : Host.Cell} (h : c ∈ Memory.write m a v) :
    (c = (a, v) ∧ v ≠ blankByte) ∨ c ∈ m := by
  induction m with
  | nil =>
    simp only [Memory.write] at h
    split at h
    · simp at h
    · next hv => exact .inl ⟨by simpa using h, hv⟩
  | cons d m ih =>
    obtain ⟨k, x⟩ := d
    simp only [Memory.write] at h
    split at h
    · split at h
      · exact .inr h
      · next hv => rcases List.mem_cons.mp h with rfl | h
                   · exact .inl ⟨rfl, hv⟩
                   · exact .inr h
    · split at h
      · split at h
        · exact .inr (List.mem_cons_of_mem _ h)
        · next hv => rcases List.mem_cons.mp h with rfl | h
                     · exact .inl ⟨rfl, hv⟩
                     · exact .inr (List.mem_cons_of_mem _ h)
      · rcases List.mem_cons.mp h with rfl | h
        · exact .inr (by simp)
        · exact (ih h).imp_right (List.mem_cons_of_mem _)

theorem Memory.pairwise_write {m : Memory} (hm : m.Pairwise (fun c d => c.1 < d.1)) (a : Nat) (v : Byte) :
    (Memory.write m a v).Pairwise (fun c d => c.1 < d.1) := by
  induction m with
  | nil => simp only [Memory.write]; split <;> simp
  | cons d m ih =>
    obtain ⟨k, x⟩ := d
    obtain ⟨hlt, hm'⟩ := List.pairwise_cons.mp hm
    simp only [Memory.write]
    split
    · next hak =>
      split
      · exact hm
      · refine List.pairwise_cons.mpr ⟨fun c hc => ?_, hm⟩
        rcases List.mem_cons.mp hc with rfl | hc
        · exact hak
        · exact hak.trans (hlt c hc)
    · next hka =>
      split
      · next hak =>
        split
        · exact hm'
        · exact List.pairwise_cons.mpr ⟨fun c hc => hak ▸ hlt c hc, hm'⟩
      · next hak =>
        refine List.pairwise_cons.mpr ⟨fun c hc => ?_, ih hm'⟩
        rcases Memory.mem_write hc with ⟨rfl, -⟩ | hc
        · show k < a; omega
        · exact hlt c hc

/-- A write to an index of `LBUF` keeps the canonical form. -/
theorem Memory.wf_write {m : Memory} {a : Nat} (v : Byte) (hm : Memory.wf m) (ha : a < Config.lineMax) :
    Memory.wf (Memory.write m a v) := by
  refine ⟨Memory.pairwise_write hm.1 a v, fun c hc => ?_⟩
  rcases Memory.mem_write hc with ⟨rfl, hv⟩ | hc
  · exact ⟨hv, ha⟩
  · exact hm.2 c hc

/-- The memory of reset is in its canonical form. -/
theorem Memory.wf_reset : Memory.wf State.reset.lbuf := by decide

end Sys2Proof.Machine
end

