-- ==== Sys2Proof/Laws/State.lean ====
section
/-! SUPPORT. One lemma per field per update, so that no later proof unfolds an update of the state. -/

namespace Sys2Proof.Machine

/-! ### memWriteGpio -/

@[simp] theorem memWriteGpio_phase (v : Row) (s : State) : (memWriteGpio v s).phase = s.phase := rfl
@[simp] theorem memWriteGpio_dir (v : Row) (s : State) : (memWriteGpio v s).dir = s.dir := rfl
@[simp] theorem memWriteGpio_delay (v : Row) (s : State) : (memWriteGpio v s).delay = s.delay := rfl
@[simp] theorem memWriteGpio_remain (v : Row) (s : State) : (memWriteGpio v s).remain = s.remain := rfl
@[simp] theorem memWriteGpio_hold (v : Row) (s : State) : (memWriteGpio v s).hold = s.hold := rfl
@[simp] theorem memWriteGpio_busy (v : Row) (s : State) : (memWriteGpio v s).busy = s.busy := rfl
@[simp] theorem memWriteGpio_gpio (v : Row) (s : State) : (memWriteGpio v s).gpio = v := rfl
@[simp] theorem memWriteGpio_llen (v : Row) (s : State) : (memWriteGpio v s).llen = s.llen := rfl
@[simp] theorem memWriteGpio_lbuf (v : Row) (s : State) : (memWriteGpio v s).lbuf = s.lbuf := rfl
@[simp] theorem memWriteGpio_fe (v : Row) (s : State) : (memWriteGpio v s).fe = s.fe := rfl
@[simp] theorem memWriteGpio_cfg (v : Row) (s : State) : (memWriteGpio v s).cfg = s.cfg := rfl
@[simp] theorem memWriteGpio_rx (v : Row) (s : State) : (memWriteGpio v s).rx = s.rx := rfl
@[simp] theorem memWriteGpio_cmds (v : Row) (s : State) : (memWriteGpio v s).cmds = s.cmds := rfl
@[simp] theorem memWriteGpio_rst (v : Row) (s : State) : (memWriteGpio v s).rst = s.rst := rfl
@[simp] theorem memWriteGpio_trace (v : Row) (s : State) : (memWriteGpio v s).trace = s.trace ++ [.pins s.now v] :=
  rfl
@[simp] theorem memWriteGpio_now (v : Row) (s : State) : (memWriteGpio v s).now = s.now := rfl
@[simp] theorem memWriteGpio_draws (v : Row) (s : State) : (memWriteGpio v s).draws = s.draws := rfl

/-! ### adv -/

@[simp] theorem adv_phase (s : State) : (adv s).phase = nextIndex s.phase s.dir := rfl
@[simp] theorem adv_dir (s : State) : (adv s).dir = s.dir := rfl
@[simp] theorem adv_delay (s : State) : (adv s).delay = s.delay := rfl
@[simp] theorem adv_remain (s : State) : (adv s).remain = s.remain - 1 := rfl
@[simp] theorem adv_hold (s : State) : (adv s).hold = s.delay := rfl
@[simp] theorem adv_busy (s : State) : (adv s).busy = s.busy := rfl
@[simp] theorem adv_gpio (s : State) : (adv s).gpio = memRead s.cfg.table (nextIndex s.phase s.dir) := rfl
@[simp] theorem adv_llen (s : State) : (adv s).llen = s.llen := rfl
@[simp] theorem adv_lbuf (s : State) : (adv s).lbuf = s.lbuf := rfl
@[simp] theorem adv_fe (s : State) : (adv s).fe = s.fe := rfl
@[simp] theorem adv_cfg (s : State) : (adv s).cfg = s.cfg := rfl
@[simp] theorem adv_rx (s : State) : (adv s).rx = s.rx := rfl
@[simp] theorem adv_cmds (s : State) : (adv s).cmds = s.cmds := rfl
@[simp] theorem adv_rst (s : State) : (adv s).rst = s.rst := rfl
@[simp] theorem adv_trace (s : State) : (adv s).trace = s.trace ++ [.pins s.now (memRead s.cfg.table (nextIndex s.phase s.dir))] :=
  rfl
@[simp] theorem adv_now (s : State) : (adv s).now = s.now := rfl
@[simp] theorem adv_draws (s : State) : (adv s).draws = s.draws := rfl

/-! ### tick -/

@[simp] theorem tick_phase (s : State) : (tick s).phase = s.phase := rfl
@[simp] theorem tick_dir (s : State) : (tick s).dir = s.dir := rfl
@[simp] theorem tick_delay (s : State) : (tick s).delay = s.delay := rfl
@[simp] theorem tick_remain (s : State) : (tick s).remain = s.remain := rfl
@[simp] theorem tick_hold (s : State) : (tick s).hold = if s.hold = 0 then 0 else s.hold - 1 := rfl
@[simp] theorem tick_busy (s : State) : (tick s).busy = s.busy := rfl
@[simp] theorem tick_gpio (s : State) : (tick s).gpio = s.gpio := rfl
@[simp] theorem tick_llen (s : State) : (tick s).llen = s.llen := rfl
@[simp] theorem tick_lbuf (s : State) : (tick s).lbuf = s.lbuf := rfl
@[simp] theorem tick_fe (s : State) : (tick s).fe = s.fe := rfl
@[simp] theorem tick_cfg (s : State) : (tick s).cfg = s.cfg := rfl
@[simp] theorem tick_rx (s : State) : (tick s).rx = s.rx := rfl
@[simp] theorem tick_cmds (s : State) : (tick s).cmds = s.cmds := rfl
@[simp] theorem tick_rst (s : State) : (tick s).rst = s.rst := rfl
@[simp] theorem tick_trace (s : State) : (tick s).trace = s.trace := rfl
@[simp] theorem tick_now (s : State) : (tick s).now = s.now + 1 := rfl
@[simp] theorem tick_draws (s : State) : (tick s).draws = s.draws := rfl

/-! ### emit -/

@[simp] theorem emit_phase (r : Response) (s : State) : (emit r s).phase = s.phase := rfl
@[simp] theorem emit_dir (r : Response) (s : State) : (emit r s).dir = s.dir := rfl
@[simp] theorem emit_delay (r : Response) (s : State) : (emit r s).delay = s.delay := rfl
@[simp] theorem emit_remain (r : Response) (s : State) : (emit r s).remain = s.remain := rfl
@[simp] theorem emit_hold (r : Response) (s : State) : (emit r s).hold = s.hold := rfl
@[simp] theorem emit_busy (r : Response) (s : State) : (emit r s).busy = s.busy := rfl
@[simp] theorem emit_gpio (r : Response) (s : State) : (emit r s).gpio = s.gpio := rfl
@[simp] theorem emit_llen (r : Response) (s : State) : (emit r s).llen = s.llen := rfl
@[simp] theorem emit_lbuf (r : Response) (s : State) : (emit r s).lbuf = s.lbuf := rfl
@[simp] theorem emit_fe (r : Response) (s : State) : (emit r s).fe = s.fe := rfl
@[simp] theorem emit_cfg (r : Response) (s : State) : (emit r s).cfg = s.cfg := rfl
@[simp] theorem emit_rx (r : Response) (s : State) : (emit r s).rx = s.rx := rfl
@[simp] theorem emit_cmds (r : Response) (s : State) : (emit r s).cmds = s.cmds := rfl
@[simp] theorem emit_rst (r : Response) (s : State) : (emit r s).rst = s.rst := rfl
@[simp] theorem emit_trace (r : Response) (s : State) : (emit r s).trace = s.trace ++ [.line r] := rfl
@[simp] theorem emit_now (r : Response) (s : State) : (emit r s).now = s.now := rfl
@[simp] theorem emit_draws (r : Response) (s : State) : (emit r s).draws = s.draws := rfl

/-! ### indicate -/

@[simp] theorem indicate_phase (k : Indication) (s : State) : (indicate k s).phase = s.phase := rfl
@[simp] theorem indicate_dir (k : Indication) (s : State) : (indicate k s).dir = s.dir := rfl
@[simp] theorem indicate_delay (k : Indication) (s : State) : (indicate k s).delay = s.delay := rfl
@[simp] theorem indicate_remain (k : Indication) (s : State) : (indicate k s).remain = s.remain := rfl
@[simp] theorem indicate_hold (k : Indication) (s : State) : (indicate k s).hold = s.hold := rfl
@[simp] theorem indicate_busy (k : Indication) (s : State) : (indicate k s).busy = s.busy := rfl
@[simp] theorem indicate_gpio (k : Indication) (s : State) : (indicate k s).gpio = s.gpio := rfl
@[simp] theorem indicate_llen (k : Indication) (s : State) : (indicate k s).llen = s.llen := rfl
@[simp] theorem indicate_lbuf (k : Indication) (s : State) : (indicate k s).lbuf = s.lbuf := rfl
@[simp] theorem indicate_fe (k : Indication) (s : State) : (indicate k s).fe = s.fe := rfl
@[simp] theorem indicate_cfg (k : Indication) (s : State) : (indicate k s).cfg = s.cfg := rfl
@[simp] theorem indicate_rx (k : Indication) (s : State) : (indicate k s).rx = s.rx := rfl
@[simp] theorem indicate_cmds (k : Indication) (s : State) : (indicate k s).cmds = s.cmds := rfl
@[simp] theorem indicate_rst (k : Indication) (s : State) : (indicate k s).rst = s.rst := rfl
@[simp] theorem indicate_trace (k : Indication) (s : State) : (indicate k s).trace = s.trace ++ [.ind k] := rfl
@[simp] theorem indicate_now (k : Indication) (s : State) : (indicate k s).now = s.now := rfl
@[simp] theorem indicate_draws (k : Indication) (s : State) : (indicate k s).draws = s.draws := rfl

/-! ### boot -/

@[simp] theorem boot_phase (s : State) : (boot s).phase = s.phase := rfl
@[simp] theorem boot_dir (s : State) : (boot s).dir = s.dir := rfl
@[simp] theorem boot_delay (s : State) : (boot s).delay = s.delay := rfl
@[simp] theorem boot_remain (s : State) : (boot s).remain = s.remain := rfl
@[simp] theorem boot_hold (s : State) : (boot s).hold = s.hold := rfl
@[simp] theorem boot_busy (s : State) : (boot s).busy = s.busy := rfl
@[simp] theorem boot_gpio (s : State) : (boot s).gpio = s.gpio := rfl
@[simp] theorem boot_llen (s : State) : (boot s).llen = s.llen := rfl
@[simp] theorem boot_lbuf (s : State) : (boot s).lbuf = s.lbuf := rfl
@[simp] theorem boot_fe (s : State) : (boot s).fe = .polling := rfl
@[simp] theorem boot_cfg (s : State) : (boot s).cfg = s.cfg := rfl
@[simp] theorem boot_rx (s : State) : (boot s).rx = s.rx := rfl
@[simp] theorem boot_cmds (s : State) : (boot s).cmds = s.cmds := rfl
@[simp] theorem boot_rst (s : State) : (boot s).rst = s.rst := rfl
@[simp] theorem boot_trace (s : State) : (boot s).trace = s.trace ++ [.line (.startup s.cfg.spr)] := rfl
@[simp] theorem boot_now (s : State) : (boot s).now = s.now := rfl
@[simp] theorem boot_draws (s : State) : (boot s).draws = s.draws := rfl

/-! ### Answers -/

/-- An error leaves two events and nothing else (60_exceptions R88). -/
theorem raise_eq (r : Response) (s : State) :
    raise r s = { s with trace := s.trace ++ [.line r, .ind .failure] } := by simp [raise, emit, indicate]

/-- An acknowledgement leaves two events and nothing else (42_wire_commands R79, R80). -/
theorem acknowledge_eq (r : Response) (s : State) :
    acknowledge r s = { s with trace := s.trace ++ [.line r, .ind .success] } := by simp [acknowledge, emit, indicate]

/-- The answer of a command with a status line is three events and nothing else (42_wire_commands R81, R82). -/
theorem succeed_eq (r : Response) (s : State) :
    succeed r s = { s with trace := s.trace ++ [.line r, .line .ok, .ind .success] } := by
  simp [succeed, acknowledge, emit, indicate]

/-- The end of a waiting `STEP` (42_wire_commands R81, R85). -/
theorem completeStep_eq (m : Rat) (f : Dir) (s : State) :
    completeStep m f s =
      { s with fe := .polling, trace := s.trace ++ [.line (.stepStatus m f), .line .ok, .ind .success] } := by
  simp [completeStep, succeed_eq]

end Sys2Proof.Machine
end

