-- ==== Sys2Proof/Laws/Ops.lean ====
section
/-! SUPPORT. What each shared operation can do, said once. -/

namespace Sys2Proof.Machine

/-! ### Outcomes -/

@[simp] theorem next_inj {s t : State} :
    ((Host.Outcome.next s : Host.Outcome State Fault Refusal) = .next t) ↔ s = t :=
  ⟨fun h => by cases h; rfl, fun h => by rw [h]⟩

/-! ### Stepping -/

/-- `EXPIRE` ends the run or makes the next transition. -/
theorem expire_cases (s : State) :
    (s.remain = 0 ∧ expire s = { s with busy := false }) ∨ (s.remain ≠ 0 ∧ expire s = adv s) := by
  by_cases h : s.remain = 0
  · exact .inl ⟨h, if_pos h⟩
  · exact .inr ⟨h, if_neg h⟩

/-- Accepting a `STEPCNT` does nothing, or starts a run with its first transition. -/
theorem acceptStepcnt_cases (n : Word32) (d : Dir) (s : State) :
    (n.toInt ≤ 0 ∧ acceptStepcnt n d s = s) ∨
    (0 < n.toInt ∧ acceptStepcnt n d s = adv { s with dir := d, remain := n, busy := true }) := by
  by_cases h : n.toInt ≤ 0
  · exact .inl ⟨h, by simp [acceptStepcnt, h]⟩
  · exact .inr ⟨by omega, by simp [acceptStepcnt, h]⟩

/-- Accepting a `SETDELAY` does nothing, or stores a positive value. -/
theorem acceptSetdelay_cases (us : Word32) (s : State) :
    (us.toInt ≤ 0 ∧ acceptSetdelay us s = s) ∨ (0 < us.toInt ∧ acceptSetdelay us s = { s with delay := us }) := by
  by_cases h : us.toInt ≤ 0
  · exact .inl ⟨h, by simp [acceptSetdelay, h]⟩
  · exact .inr ⟨by omega, by simp [acceptSetdelay, h]⟩

/-! ### The line buffer -/

/-- A byte is appended while there is room and dropped otherwise. -/
theorem appendByte_cases (b : Byte) (s : State) :
    (s.llen.toNat < Config.lineMax ∧
      appendByte b s = { s with lbuf := Memory.write s.lbuf s.llen.toNat b, llen := s.llen + 1 }) ∨
    (Config.lineMax ≤ s.llen.toNat ∧ appendByte b s = s) := by
  by_cases h : s.llen.toNat < Config.lineMax
  · exact .inl ⟨h, by simp [appendByte, h]⟩
  · exact .inr ⟨by omega, by simp [appendByte, h]⟩

theorem llen_succ {l : BitVec 8} (h : l.toNat < Config.lineMax) : (l + 1).toNat = l.toNat + 1 := by
  simp only [Config.lineMax] at h
  rw [BitVec.toNat_add, show (1 : BitVec 8).toNat = 1 from rfl]
  omega

/-- The line read back after an append is the line before it and the byte. -/
theorem bufferedLine_append {b : Byte} {s : State} (hw : Memory.wf s.lbuf) (h : s.llen.toNat < Config.lineMax) :
    bufferedLine (appendByte b s) =
      some ((List.range s.llen.toNat).map (Memory.read s.lbuf) ++ [b]) := by
  rcases appendByte_cases b s with ⟨-, e⟩ | ⟨h', -⟩
  · rw [e]
    have hs := llen_succ h
    simp only [bufferedLine, hs, Nat.succ_le_of_lt h, if_true, List.range_succ, List.map_append, List.map_cons,
      List.map_nil, Memory.read_write_same hw.1]
    congr 2
    refine List.map_congr_left fun a ha => Memory.read_write_other b ?_
    exact Ne.symm (Nat.ne_of_lt (List.mem_range.mp ha))
  · omega

/-! ### The classes of outcomes of the handlers' checks -/

/-- `handleStep` says which of its four outcomes a checked `STEP` has. -/
theorem handleStep_next {c : Checked (Rat × Dir)} {s t : State} (h : handleStep c s = .next t) :
    t = raise .stepUsage s ∨
    (∃ m f, c = .ok (m, f) ∧ expandRev s.cfg.spr m f = .nothing ∧ t = succeed (.stepStatus m f) s) ∨
    (∃ m f n d, c = .ok (m, f) ∧ expandRev s.cfg.spr m f = .stepcnt n d ∧
      t = acceptStepcnt n d { s with fe := .awaiting m f }) := by
  unfold handleStep at h
  split at h
  · exact .inl (next_inj.mp h).symm
  · simp at h
  · next m f =>
    unfold issueStep at h
    split at h
    · next he => exact .inr (.inl ⟨m, f, rfl, he, (next_inj.mp h).symm⟩)
    · next n d he => exact .inr (.inr ⟨m, f, n, d, rfl, he, (next_inj.mp h).symm⟩)
    · simp at h

/-- `handleSpeed` says which of its two outcomes a checked `SPEED` has. -/
theorem handleSpeed_next {c : Checked Int} {s t : State} (h : handleSpeed c s = .next t) :
    t = raise .speedUsage s ∨
    (∃ u, c = .ok u ∧ t = succeed (.speedStatus u) (acceptSetdelay (BitVec.ofInt 32 u) s)) := by
  unfold handleSpeed at h
  split at h
  · exact .inl (next_inj.mp h).symm
  · simp at h
  · next u => exact .inr ⟨u, rfl, (next_inj.mp h).symm⟩

end Sys2Proof.Machine
end

