-- ==== Sys2Proof/Laws/PerInstr.lean ====
section
/-! SUPPORT. Statements made per instruction: where an instruction's encoding belongs, and that a line fits the buffer
and is ASCII text (30_encoding R54, R60, R66). -/

namespace Sys2Proof.Laws.EncodeFits

/-- The encoding of a well-formed instruction is a port request or a line, as its row says, and a line is at most 200 bytes
of text. -/
def Statement (i : Instr) : Prop :=
  i.wellFormed = true →
    match encode i with
    | .port _ => i.isLine = false
    | .line bytes => i.isLine = true ∧ bytes.length ≤ Config.lineMax ∧ bytes.all isText = true

theorem command_isText {name args : List Byte} (hn : name.all isText = true) (ha : argsWellFormed args = true) :
    (encodeCommand name args).all isText = true := by
  simp only [argsWellFormed, Bool.and_eq_true] at ha
  unfold encodeCommand
  split
  · exact hn
  · rw [List.all_append, hn, List.all_cons, ha.1]; rfl

theorem command_fits {name args : List Byte} (hn : name.all isText = true)
    (h : (argsWellFormed args && lineFits name args) = true) :
    (encodeCommand name args).length ≤ Config.lineMax ∧ (encodeCommand name args).all isText = true := by
  simp only [Bool.and_eq_true, lineFits, decide_eq_true_eq] at h
  exact ⟨h.2, command_isText hn h.1⟩

theorem stepcnt (steps : Word32) (dir : Dir) : Statement (.stepcnt steps dir) := fun _ => rfl

theorem setdelay (us : Word32) : Statement (.setdelay us) := fun _ => rfl

theorem steprev (revs : Rat) (dir : Dir) : Statement (.steprev revs dir) := fun _ => rfl

theorem healthcheck (args : List Byte) : Statement (.healthcheck args) :=
  fun h => ⟨rfl, command_fits (by decide) h⟩

theorem ping (args : List Byte) : Statement (.ping args) := fun h => ⟨rfl, command_fits (by decide) h⟩

theorem step (args : List Byte) : Statement (.step args) := fun h => ⟨rfl, command_fits (by decide) h⟩

theorem speed (args : List Byte) : Statement (.speed args) := fun h => ⟨rfl, command_fits (by decide) h⟩

theorem unknown (token args : List Byte) : Statement (.unknown token args) := by
  intro h
  simp only [Instr.wellFormed, Bool.and_eq_true] at h
  obtain ⟨⟨⟨ht, -⟩, ha⟩, hf⟩ := h
  refine ⟨rfl, command_fits ?_ (by rw [ha, hf]; rfl)⟩
  simp only [tokenWellFormed, Bool.and_eq_true, List.all_eq_true] at ht ⊢
  exact fun b hb => (ht.2 b hb).1.1

end Sys2Proof.Laws.EncodeFits
end

