-- ==== Sys2Proof/Laws/Step.lean ====
section
/-! SUPPORT. Everything an instruction and a step can do when they answer a next state, said once. -/

namespace Sys2Proof.Machine

/-- The three responses of `raise` (60_exceptions R93). -/
def Response.isError : Response → Bool
  | .ok => false
  | .pong => false
  | .stepStatus _ _ => false
  | .speedStatus _ => false
  | .startup _ => false
  | .stepUsage => true
  | .speedUsage => true
  | .unknownCommand _ => true

/-- What an instruction can do. -/
inductive Effect (i : Instr) (s : State) : State → Prop where
  /-- it waits, or does nothing -/
  | idle : Effect i s s
  /-- a port operation starts a run -/
  | run (n : Word32) (d : Dir) (hi : i.isLine = false) (hb : s.busy = false) (hn : 0 < n.toInt) :
    Effect i s (adv { s with dir := d, remain := n, busy := true })
  /-- a port operation stores a delay -/
  | store (us : Word32) (hi : i.isLine = false) (hb : s.busy = false) (hu : 0 < us.toInt) :
    Effect i s { s with delay := us }
  /-- a wire command succeeds at once and changes no register -/
  | answer (rs : List Response) (hi : i.isLine = true) (hl : listening s = true) :
    Effect i s { s with trace := s.trace ++ (rs.map Output.line ++ [Output.ind .success]) }
  /-- a line is rejected: one error line, one failure indication, no register changed -/
  | reject (r : Response) (hi : i.isLine = true) (hl : listening s = true) (hr : r.isError = true) :
    Effect i s { s with trace := s.trace ++ [.line r, .ind .failure] }
  /-- a `STEP` starts a run and waits for it -/
  | wireRun (m : Rat) (f d : Dir) (n : Word32) (hi : i.isLine = true) (hl : listening s = true) (hn : 0 < n.toInt) :
    Effect i s (adv { s with fe := .awaiting m f, dir := d, remain := n, busy := true })
  /-- a `SPEED` stores a delay and answers -/
  | wireStore (u : Int) (hi : i.isLine = true) (hl : listening s = true) (hu : 0 < (BitVec.ofInt 32 u).toInt) :
    Effect i s { s with delay := BitVec.ofInt 32 u, trace := s.trace ++ [.line (.speedStatus u), .line .ok, .ind .success] }

theorem listening_iff {s : State} : listening s = true ↔ s.busy = false ∧ s.fe = .polling := by
  simp [listening, cmdReady]

theorem maxCount_toInt {total : Int} (h0 : ¬ total ≤ 0) (h1 : ¬ total > Config.maxCount) :
    (BitVec.ofInt 32 total).toInt = total := by
  simp only [Config.maxCount] at h1
  rw [BitVec.toInt_ofInt, Int.bmod_eq_of_le] <;> omega

/-- What `STEPREV` issues is a positive count. -/
theorem expandTotal_pos {total : Int} {d e : Dir} {n : Word32} (h : expandTotal total d = .stepcnt n e) :
    0 < n.toInt ∧ n.toInt = total ∧ e = d := by
  unfold expandTotal at h
  split at h
  · simp at h
  · next h0 =>
    split at h
    · simp at h
    · next h1 => cases h; rw [maxCount_toInt h0 h1]; exact ⟨by omega, rfl, rfl⟩

theorem expandRev_pos {spr : Nat} {m : Rat} {d e : Dir} {n : Word32} (h : expandRev spr m d = .stepcnt n e) :
    0 < n.toInt := by
  unfold expandRev at h
  split at h
  · simp at h
  · split at h
    · exact (expandTotal_pos h).1
    · exact (expandTotal_pos h).1

theorem effect_answer (i : Instr) (s : State) (rs : List Response) (os : List Output)
    (h : os = rs.map Output.line ++ [Output.ind .success]) (hi : i.isLine = true) (hl : listening s = true) :
    Effect i s { s with trace := s.trace ++ os } := by
  subst h; exact .answer rs hi hl

theorem effect_acceptStepcnt (i : Instr) (n : Word32) (d : Dir) (s : State) (hi : i.isLine = false)
    (hb : s.busy = false) : Effect i s (acceptStepcnt n d s) := by
  rcases acceptStepcnt_cases n d s with ⟨-, e⟩ | ⟨hn, e⟩
  · rw [e]; exact .idle
  · rw [e]; exact .run n d hi hb hn

/-- Every next state of `exec` is one of the effects. -/
theorem exec_effect {i : Instr} {s t : State} (h : exec i s = .next t) : Effect i s t := by
  cases i with
  | stepcnt n d =>
    simp only [exec, execStepcnt] at h
    split at h
    · next hr =>
      rw [← next_inj.mp h]
      exact effect_acceptStepcnt _ n d s rfl (by simpa [cmdReady] using hr)
    · rw [← next_inj.mp h]; exact .idle
  | setdelay us =>
    simp only [exec, execSetdelay] at h
    split at h
    · next hr =>
      rw [← next_inj.mp h]
      rcases acceptSetdelay_cases us s with ⟨-, e⟩ | ⟨hu, e⟩
      · rw [e]; exact .idle
      · rw [e]; exact .store us rfl (by simpa [cmdReady] using hr) hu
    · rw [← next_inj.mp h]; exact .idle
  | steprev revs d =>
    simp only [exec, execSteprev] at h
    split at h
    · next hr =>
      unfold issueExpansion at h
      split at h
      · rw [← next_inj.mp h]; exact .idle
      · next n e _ =>
        rw [← next_inj.mp h]
        exact effect_acceptStepcnt _ n e s rfl (by simpa [cmdReady] using hr)
      · simp at h
    · rw [← next_inj.mp h]; exact .idle
  | healthcheck args =>
    simp only [exec, execHealthcheck] at h
    split at h
    · next hl => rw [← next_inj.mp h, acknowledge_eq]; exact effect_answer _ s [.ok] _ rfl rfl hl
    · rw [← next_inj.mp h]; exact .idle
  | ping args =>
    simp only [exec, execPing] at h
    split at h
    · next hl => rw [← next_inj.mp h, acknowledge_eq]; exact effect_answer _ s [.pong] _ rfl rfl hl
    · rw [← next_inj.mp h]; exact .idle
  | step args =>
    simp only [exec, execStep] at h
    split at h
    · next hl =>
      rcases handleStep_next h with e | ⟨m, f, -, -, e⟩ | ⟨m, f, n, d, -, hx, e⟩
      · rw [e, raise_eq]; exact .reject _ rfl hl rfl
      · rw [e, succeed_eq]; exact effect_answer _ s [.stepStatus m f, .ok] _ rfl rfl hl
      · have hn := expandRev_pos hx
        rcases acceptStepcnt_cases n d { s with fe := .awaiting m f } with ⟨h0, -⟩ | ⟨-, e'⟩
        · omega
        · rw [e, e']; exact .wireRun m f d n rfl hl hn
    · rw [← next_inj.mp h]; exact .idle
  | speed args =>
    simp only [exec, execSpeed] at h
    split at h
    · next hl =>
      rcases handleSpeed_next h with e | ⟨u, -, e⟩
      · rw [e, raise_eq]; exact .reject _ rfl hl rfl
      · rcases acceptSetdelay_cases (BitVec.ofInt 32 u) s with ⟨-, e'⟩ | ⟨hu, e'⟩
        · rw [e, e', succeed_eq]; exact effect_answer _ s [.speedStatus u, .ok] _ rfl rfl hl
        · rw [e, e', succeed_eq]; exact .wireStore u rfl hl hu
    · rw [← next_inj.mp h]; exact .idle
  | unknown token args =>
    simp only [exec, execUnknown] at h
    split at h
    · next hl => rw [← next_inj.mp h, raise_eq]; exact .reject _ rfl hl rfl
    · rw [← next_inj.mp h]; exact .idle

/-- Undisturbed and in a run, a step is `EXPIRE` at the end of a hold and `TICK` during it (40_stepping R70, R72). -/
theorem step_of_busy {s : State} (hu : undisturbed s) (hb : s.busy = true) :
    step s = if s.hold = 0 then .next (expire s) else .next (tick s) := by
  unfold step cycle phaseOf
  rw [hu.1, hu.2, hb]
  by_cases h : s.hold = 0
  · simp only [Bool.false_eq_true, if_false, if_true, if_pos h]
  · simp only [Bool.false_eq_true, if_false, if_true, if_neg h]

/-- Undisturbed and idle, a step takes the next input (70 R123). -/
theorem step_of_idle {s : State} (hu : undisturbed s) (hb : s.busy = false) : step s = idleStep s := by
  unfold step cycle phaseOf
  rw [hu.1, hu.2, hb]
  simp only [Bool.false_eq_true, if_false]

/-- One step and then the rest. -/
theorem run_succ (n : Nat) {s t : State} (h : step s = .next t) : run (n + 1) s = run n t := by
  simp only [run, h]

@[simp] theorem run_zero (s : State) : run 0 s = .next s := rfl

/-- `m` steps and then `n` more. -/
theorem run_add {m n : Nat} {s t : State} (h : run m s = .next t) : run (m + n) s = run n t := by
  induction m generalizing s with
  | zero => simp only [run_zero, next_inj] at h; subst h; simp
  | succ m ih =>
    unfold run at h
    split at h
    · next u hu => rw [Nat.add_right_comm, run_succ _ hu]; exact ih h
    · simp at h
    · simp at h

/-- The run of the host's interface is this run. -/
theorem run_eq_core (n : Nat) (s : State) : Host.Core.run Sys2Proof.core n s = run n s := by
  induction n generalizing s with
  | zero => rfl
  | succ n ih =>
    refine (Host.Core.run.eq_2 Sys2Proof.core s n).trans ?_
    unfold run
    cases h : step s with
    | next t =>
      have h' : Sys2Proof.core.step s = .next t := h
      rw [h']; exact ih t
    | fault r =>
      have h' : Sys2Proof.core.step s = .fault r := h
      rw [h']; rfl
    | refused r =>
      have h' : Sys2Proof.core.step s = .refused r := h
      rw [h']; rfl

/-- A polling front end takes the oldest unread byte (30_encoding R53). -/
theorem step_of_polling {s : State} {b : Byte} {rest : List Byte} (hu : undisturbed s) (hb : s.busy = false)
    (hf : s.fe = .polling) (hx : s.rx = b :: rest) : step s = assemble b { s with rx := rest } := by
  rw [step_of_idle hu hb]
  simp only [idleStep, hf, poll, hx]

/-- A line feed completes the line in the buffer (30_encoding R54). -/
theorem assemble_lineFeed {s : State} {line : List Byte} (hl : bufferedLine s = some line) :
    assemble byteLf s = processLine line { s with llen := 0 } := by
  unfold assemble completeLine
  rw [if_neg (by decide), if_pos rfl, hl]

/-- What one step can do. -/
inductive StepTo (s : State) : State → Prop where
  | reset (hr : s.rst = true) : StepTo s (applyReset s)
  | runEnds (hu : undisturbed s) (hb : s.busy = true) (hh : s.hold = 0) (hn : s.remain = 0) :
    StepTo s { s with busy := false }
  | transition (hu : undisturbed s) (hb : s.busy = true) (hh : s.hold = 0) (hn : s.remain ≠ 0) : StepTo s (adv s)
  | holdTick (hu : undisturbed s) (hb : s.busy = true) (hh : s.hold ≠ 0) : StepTo s (tick s)
  | restTick (hu : undisturbed s) (hb : s.busy = false)
    (hr : s.fe = .absent ∧ s.cmds = [] ∨ s.fe = .polling ∧ s.rx = []) : StepTo s (tick s)
  | accept (r : Request) (rest : List Request) (t : State) (hu : undisturbed s) (hb : s.busy = false)
    (hf : s.fe = .absent) (hc : s.cmds = r :: rest) (h : Effect (decodeRequest r) { s with cmds := rest } t) : StepTo s t
  | boot (hu : undisturbed s) (hb : s.busy = false) (hf : s.fe = .booting) : StepTo s (boot s)
  | complete (m : Rat) (f : Dir) (hu : undisturbed s) (hb : s.busy = false) (hf : s.fe = .awaiting m f) :
    StepTo s (completeStep m f s)
  | ignoreCr (rest : List Byte) (hu : undisturbed s) (hb : s.busy = false) (hf : s.fe = .polling)
    (hr : s.rx = byteCr :: rest) : StepTo s { s with rx := rest }
  | append (b : Byte) (rest : List Byte) (hu : undisturbed s) (hb : s.busy = false) (hf : s.fe = .polling)
    (hr : s.rx = b :: rest) : StepTo s (appendByte b { s with rx := rest })
  | emptyLine (rest : List Byte) (hu : undisturbed s) (hb : s.busy = false) (hf : s.fe = .polling)
    (hr : s.rx = byteLf :: rest) : StepTo s { s with rx := rest, llen := 0 }
  | command (rest line : List Byte) (i : Instr) (t : State) (hu : undisturbed s) (hb : s.busy = false)
    (hf : s.fe = .polling) (hr : s.rx = byteLf :: rest) (hl : bufferedLine s = some line)
    (hi : i.isLine = true) (hd : decodeLine line = .instr i)
    (h : Effect i { s with rx := rest, llen := 0 } t) : StepTo s t

/-- Every next state of `step` is one of these. -/
theorem step_cases {s t : State} (h : step s = .next t) : StepTo s t := by
  unfold step cycle at h
  split at h
  · next hr => rw [← next_inj.mp h]; exact .reset hr
  · next hr =>
    split at h
    · simp at h
    · next hp =>
      have hu : undisturbed s := ⟨by simpa using hr, by simpa using hp⟩
      split at h
      · next hph =>
        have hb : s.busy = true ∧ s.hold = 0 := by
          unfold phaseOf at hph; split at hph
          · next hb => split at hph
                       · next hh => exact ⟨hb, hh⟩
                       · simp at hph
          · simp at hph
        rw [← next_inj.mp h]
        rcases expire_cases s with ⟨hn, e⟩ | ⟨hn, e⟩ <;> rw [e]
        · exact .runEnds hu hb.1 hb.2 hn
        · exact .transition hu hb.1 hb.2 hn
      · next hph =>
        have hb : s.busy = true ∧ s.hold ≠ 0 := by
          unfold phaseOf at hph; split at hph
          · next hb => split at hph
                       · simp at hph
                       · next hh => exact ⟨hb, hh⟩
          · simp at hph
        rw [← next_inj.mp h]; exact .holdTick hu hb.1 hb.2
      · next hph =>
        have hb : s.busy = false := by
          unfold phaseOf at hph; split at hph
          · split at hph <;> simp at hph
          · next hb => simpa using hb
        unfold idleStep at h
        split at h
        · next hf =>
          unfold acceptRequest at h
          split at h
          · next hc => rw [← next_inj.mp h]; exact .restTick hu hb (.inl ⟨hf, hc⟩)
          · next r rest hc => exact .accept r rest t hu hb hf hc (exec_effect h)
        · next hf => rw [← next_inj.mp h]; exact .boot hu hb hf
        · next m f hf => rw [← next_inj.mp h]; exact .complete m f hu hb hf
        · next hf =>
          unfold poll at h
          split at h
          · next hx => rw [← next_inj.mp h]; exact .restTick hu hb (.inr ⟨hf, hx⟩)
          · next b rest hx =>
            unfold assemble at h
            split at h
            · next hcr => rw [← next_inj.mp h]; exact .ignoreCr rest hu hb hf (hcr ▸ hx)
            · split at h
              · next hlf =>
                subst hlf
                unfold completeLine at h
                split at h
                · next line hl =>
                  unfold processLine at h
                  split at h
                  · next i hd =>
                    exact .command rest line i t hu hb hf hx hl (decodeLine_isLine hd) hd (exec_effect h)
                  · rw [← next_inj.mp h]; exact .emptyLine rest hu hb hf hx
                  · simp at h
                · simp at h
              · rw [← next_inj.mp h]; exact .append b rest hu hb hf hx

end Sys2Proof.Machine
end

