-- ==== Sys2Proof/Tests/Slice0.lean ====
section
/-! SUPPORT. Tests on small states, each of one step or one function, with results written out in 95_test_vectors, and a
witness for the hypotheses of every statement. -/

namespace Sys2Proof.Tests.Slice0

open Sys2Proof Sys2Proof.Machine

/-! ### Small states -/

/-- A machine with its front end polling. -/
def polling : State := { State.reset with fe := .polling }

/-- A machine driven at the port. -/
def atPort : State := { State.reset with fe := .absent }

/-- A run at the port: the start of 95_test_vectors V8, `REMAIN = 2`, `HOLD = 100`. -/
def holding : State := { atPort with phase := 3, gpio := 0x6, busy := true, remain := 2, hold := 100 }

/-- The end of a hold with `r` transitions left. -/
def expired (r : Word32) : State := { atPort with phase := 7, gpio := 0x9, busy := true, remain := r, hold := 0 }

/-- A `STEP` in its run. -/
def waiting : State :=
  { polling with phase := 1, gpio := 0x3, busy := true, remain := 0, hold := 1, fe := .awaiting 1 .forward }

/-- A polling machine whose line buffer holds `line` and whose next unread byte is a line feed. -/
def withLine (line : List Byte) : State :=
  { line.foldl (fun s b => appendByte b s) polling with rx := [byteLf] }

/-- A field of the next state, if there is one. -/
def after {α : Type} (f : State → α) : Host.Outcome State Fault Refusal → Option α
  | .next t => some (f t)
  | .fault _ => none
  | .refused _ => none

/-- Why the machine refuses, if it does. -/
def refusalOf : Host.Outcome State Fault Refusal → Option Refusal
  | .next _ => none
  | .fault _ => none
  | .refused r => some r

/-- Why the machine faults, if it does. -/
def faultOf : Host.Outcome State Fault Refusal → Option Fault
  | .next _ => none
  | .fault r => some r
  | .refused _ => none

/-! ### WellFormed: an ill-formed term for each check -/

/-- `2  0`, the argument string of V38. -/
def argsV38 : List Byte := [0x32, 0x20, 0x20, 0x30]

theorem test_wf_accepts : (Instr.step argsV38).wellFormed = true ∧ (Instr.ping []).wellFormed = true ∧
    (Instr.speed [0x31]).wellFormed = true ∧ (Instr.healthcheck [0x78, 0x09, 0x79]).wellFormed = true ∧
    (Instr.unknown [0x46, 0x4F, 0x4F] []).wellFormed = true ∧ (Instr.stepcnt 0x80000000 .backward).wellFormed = true ∧
    (Instr.setdelay 0).wellFormed = true ∧ (Instr.steprev (mkRat (-1) 4) .forward).wellFormed = true := by decide

theorem test_wf_untrimmed_args : (Instr.step (0x20 :: argsV38)).wellFormed = false := by decide

theorem test_wf_args_not_text : (Instr.speed [0x31, 0x7F]).wellFormed = false := by decide

set_option maxRecDepth 4000 in
theorem test_wf_line_too_long : (Instr.ping (List.replicate 196 0x78)).wellFormed = false := by decide

set_option maxRecDepth 4000 in
theorem test_wf_line_just_fits : (Instr.ping (List.replicate 195 0x78)).wellFormed = true := by decide

theorem test_wf_empty_token : (Instr.unknown [] []).wellFormed = false := by decide

theorem test_wf_token_with_space : (Instr.unknown [0x46, 0x20, 0x4F] []).wellFormed = false := by decide

theorem test_wf_token_not_text : (Instr.unknown [0x46, 0x80] []).wellFormed = false := by decide

theorem test_wf_lower_case_token : (Instr.unknown [0x66] []).wellFormed = false := by decide

theorem test_wf_registered_token : (Instr.unknown [0x50, 0x49, 0x4E, 0x47] []).wellFormed = false := by decide

/-! ### Decode: words written out from the spec's encodings (95_test_vectors 2.5, 2.6; opcode table) -/

theorem test_decode_stepcnt : decode (.port (.word 0x100000003)) = .instr (.stepcnt 3 .forward) := by decide

theorem test_decode_stepcnt_negative :
    decode (.port (.word 0x1FFFFFFFF)) = .instr (.stepcnt (BitVec.ofInt 32 (-1)) .forward) := by decide

theorem test_decode_setdelay : decode (.port (.word 0x2000003E8)) = .instr (.setdelay 1000) := by decide

theorem test_decode_setdelay_dir_ignored :
    decode (.port (.word 0x3FFFFFFFF)) = .instr (.setdelay (BitVec.ofInt 32 (-1))) := by decide

theorem test_decode_steprev : decode (.port (.call 2 .backward)) = .instr (.steprev 2 .backward) := by decide

theorem test_decode_healthcheck :
    decode (.line [0x48, 0x45, 0x41, 0x4C, 0x54, 0x48, 0x43, 0x48, 0x45, 0x43, 0x4B]) = .instr (.healthcheck []) := by
  decide

theorem test_decode_ping : decode (.line [0x70, 0x69, 0x6E, 0x67]) = .instr (.ping []) := by decide

theorem test_decode_step : decode (.line [0x20, 0x09, 0x53, 0x54, 0x45, 0x50, 0x09, 0x09, 0x32, 0x20, 0x20, 0x30, 0x20]) =
    .instr (.step [0x32, 0x20, 0x20, 0x30]) := by decide

theorem test_decode_speed : decode (.line [0x53, 0x50, 0x45, 0x45, 0x44, 0x20, 0x31, 0x30, 0x30, 0x30]) =
    .instr (.speed [0x31, 0x30, 0x30, 0x30]) := by decide

theorem test_decode_unknown : decode (.line [0x53, 0x54, 0x45, 0x50, 0x53, 0x20, 0x31, 0x20, 0x31]) =
    .instr (.unknown [0x53, 0x54, 0x45, 0x50, 0x53] [0x31, 0x20, 0x31]) := by decide

theorem test_decode_empty : decode (.line [0x20, 0x20]) = .empty := by decide

theorem test_decode_not_ascii : decode (.line [0x50, 0x49, 0x4E, 0x47, 0x80]) = .notAscii := by decide

theorem test_encode_words : encode (.stepcnt 8192 .backward) = .port (.word 0x000002000) ∧
    encode (.setdelay 1000) = .port (.word 0x2000003E8) ∧
    encode (.step [0x32, 0x20, 0x30]) = .line [0x53, 0x54, 0x45, 0x50, 0x20, 0x32, 0x20, 0x30] := by decide

/-- One word of each row of the opcode table that has a word. -/
theorem test_table_words : decodeTableWord 40 0x100000003 = some (.stepcnt 3 .forward) ∧
    decodeTableWord 40 0 = some (.stepcnt 0 .backward) ∧ decodeTableWord 40 0x200000000 = some (.setdelay 0) ∧
    decodeTableWord 32 0x50494E47 = some (.ping []) ∧ decodeTableWord 32 0x53544550 = some (.step []) ∧
    decodeTableWord 40 0x5350454544 = some (.speed []) ∧
    decodeTableWord 88 0x4845414C5448434845434B = some (.healthcheck []) ∧
    decodeTableWord 24 0x464F4F = some (.unknown [0x46, 0x4F, 0x4F] []) := by decide

theorem test_table_step_runs_ping : after (fun t => linesOf t.trace)
    (step (State.reset.withFetchWord 32 0x50494E47)) = some [.startup 4096, .pong] := by decide

theorem test_table_step_runs_stepcnt : after (fun t => (t.phase, t.gpio, t.busy))
    (step (State.reset.withFetchWord 40 0x100000001)) = some (1, 0x3, true) := by decide

/-! ### The instructions -/

/-- 95_test_vectors 2.1, all sixteen rows. -/
theorem test_adv_table :
    (List.range 8).map (fun i => (nextIndex (BitVec.ofNat 3 i) .forward).toNat) = [1, 2, 3, 4, 5, 6, 7, 0] ∧
    (List.range 8).map (fun i => (nextIndex (BitVec.ofNat 3 i) .backward).toNat) = [7, 0, 1, 2, 3, 4, 5, 6] ∧
    (List.range 8).map (fun i => (memRead PhaseTable.halfStep (BitVec.ofNat 3 i)).toNat) =
      [0x1, 0x3, 0x2, 0x6, 0x4, 0xC, 0x8, 0x9] := by decide

theorem test_table_admissible : PhaseTable.halfStep.admissible = true := by decide

/-- A table that repeats one row has not the properties of 20_memory R33. -/
theorem test_table_not_admissible : PhaseTable.admissible #v[1, 1, 1, 1, 1, 1, 1, 1] = false := by decide

/-- V1: the moment of acceptance. -/
theorem test_stepcnt_v1 : after (fun t => (t.phase, t.gpio, t.hold, t.remain)) (exec (.stepcnt 1 .forward) atPort) =
    some (1, 0x3, 5000, 0) := by decide

/-- V4: a negative count writes nothing, `DIR` included. -/
theorem test_stepcnt_v4 : after id (exec (.stepcnt 0xFFFFFFFF .backward) atPort) = some atPort := by
  decide

/-- The example of R68: from 7 forward to 0. -/
theorem test_expire_wraps : after (fun t => (t.phase, t.gpio, t.hold, t.remain)) (step (expired 3)) =
    some (0, 0x1, 5000, 2) := by decide

/-- V8: `SETDELAY 7` is not accepted now. -/
theorem test_setdelay_v8 : after (fun t => (t.delay, t.hold, t.cmds.length))
    (step { holding with cmds := [.word 0x200000007] }) = some (5000, 99, 1) := by decide

/-- V30. -/
theorem test_setdelay_v30 : after (fun t => t.delay) (exec (.setdelay 0xFFFFFF9C) { atPort with delay := 1000 }) =
    some 1000 := by decide

/-- V10 to V16 and V21 to V26, as what is issued. -/
theorem test_steprev_rounding :
    expandRev 4096 (mkRat 5001220703125 10000000000000) .forward = .stepcnt 2049 .forward ∧
    expandRev 4096 (mkRat 1220703125 10000000000000) .backward = .stepcnt 1 .backward ∧
    expandRev 4096 (mkRat 1 10000) .forward = .nothing ∧
    expandRev 4096 (mkRat 3333 10000) .forward = .stepcnt 1365 .forward ∧
    expandRev 200 (mkRat 12525 10000) .backward = .stepcnt 251 .backward ∧
    expandRev 200 (mkRat 24 10000) .forward = .nothing ∧
    expandRev 4096 (mkRat 5242879999 10000) .forward = .refused := by decide

/-- V18 to V20: zero, and the sign. -/
theorem test_steprev_signs : expandRev 4096 0 .forward = .nothing ∧
    expandRev 4096 (mkRat (-1) 4) .forward = .stepcnt 1024 .backward ∧
    expandRev 4096 (-2) .backward = .stepcnt 8192 .forward := by decide

/-- V45. -/
theorem test_healthcheck_v45 : after (fun t => t.trace) (exec (.healthcheck [0x6E, 0x6F, 0x77]) polling) =
    some [.line .ok, .ind .success] := by decide

/-- V44. -/
theorem test_ping_v44 : after (fun t => t.trace) (exec (.ping []) polling) = some [.line .pong, .ind .success] := by decide

/-- V56 to V63: what fails and what does not. -/
theorem test_step_usage :
    checkStep (ascii ['a', 'b', 'c', ' ', '1']) = .usage ∧ checkStep (ascii ['5']) = .usage ∧
    checkStep (ascii ['5', ' ', '2']) = .usage ∧ checkStep (ascii ['-', '5', ' ', '1']) = .usage ∧
    checkStep (ascii ['0', ' ', '1']) = .usage ∧ checkStep (ascii ['5', ' ', '1', ' ', '1']) = .usage ∧
    checkStep [] = .usage ∧ checkStep (ascii ['5', ' ', 'x']) = .usage ∧
    checkStep (ascii ['5', 'a', 'b', 'c', ' ', '1']) = .refused .greyNumber ∧
    checkStep (ascii ['1', ' ', '1', '.', '0']) = .refused .greyNumber ∧
    checkStep (ascii ['+', '.', '5', ' ', '0', '1']) = .ok (mkRat 1 2, .forward) := by decide

/-- V53, the moment of acceptance. -/
theorem test_step_v53 : after (fun t => (t.phase, t.dir, t.remain, t.busy)) (exec (.step (ascii ['2', ' ', '0'])) polling) =
    some (7, .backward, 8191, true) := by decide

/-- V46 to V52. -/
theorem test_speed_checks : checkSpeed (ascii ['1', '0', '0', '0']) = .ok 1000 ∧
    checkSpeed (ascii ['+', '2', '5', '0']) = .ok 250 ∧ checkSpeed (ascii ['0']) = .usage ∧
    checkSpeed (ascii ['-', '1', '0', '0']) = .usage ∧ checkSpeed [] = .usage ∧
    checkSpeed (ascii ['f', 'a', 's', 't']) = .usage ∧
    checkSpeed (ascii ['1', '0', '0', ' ', '2', '0', '0']) = .refused .speedExtraTokens ∧
    checkSpeed (ascii ['1', 'e', '3']) = .refused .greyNumber ∧
    checkSpeed (ascii ['2', '1', '4', '7', '4', '8', '3', '6', '4', '8']) = .refused .integerOutOfRange := by decide

/-- V46: the answer. -/
theorem test_speed_v46 : after (fun t => (t.delay, t.trace)) (exec (.speed (ascii ['1', '0', '0', '0'])) polling) =
    some (1000, [.line (.speedStatus 1000), .line .ok, .ind .success]) := by decide

/-- V67: the token is echoed in upper case. -/
theorem test_unknown_v67 : after (fun t => t.trace) (step (withLine (ascii ['f', 'o', 'o', ' ', 'b', 'a', 'r']))) =
    some [.line (.unknownCommand [0x46, 0x4F, 0x4F]), .ind .failure] := by decide

/-- V36 and V37: no response. -/
theorem test_empty_lines : after (fun t => t.trace) (step (withLine [])) = some [] ∧
    after (fun t => t.trace) (step (withLine [0x20, 0x20])) = some [] := by decide

/-- The line buffer stores 200 bytes and drops the 201st (30_encoding R54). -/
theorem test_buffer_is_full : after (fun t => (t.llen, t.rx))
    (step { polling with llen := 200, rx := [0x4A, 0x55] }) = some (200, [0x55]) := by decide

/-- `LLEN` beyond the buffer is the model's one fault. -/
theorem test_fault : faultOf (step { polling with llen := 201, rx := [byteLf] }) = some .lineBufferRange := by decide

/-- V8 again with `rst`: the run is abandoned (70 R107). -/
theorem test_rst_ends_run : after (fun t => (t.phase, t.gpio, t.busy, t.remain, t.hold, t.rst))
    (step { holding with rst := true }) = some (0, 0, false, 0, 0, false) := by decide

/-! ### Witnesses: states and operands that meet the hypotheses of the statements -/

set_option maxRecDepth 4000 in
/-- DecodeEncodeRoundTrip: a well-formed instruction of every row. -/
theorem witness_round_trip : (Instr.stepcnt 0 .forward).wellFormed = true ∧ (Instr.setdelay 0).wellFormed = true ∧
    (Instr.steprev 0 .forward).wellFormed = true ∧ (Instr.healthcheck [0x78]).wellFormed = true ∧
    (Instr.ping []).wellFormed = true ∧ (Instr.step argsV38).wellFormed = true ∧ (Instr.speed [0x31]).wellFormed = true ∧
    (Instr.unknown (List.replicate 200 0x58) []).wellFormed = true := by decide

/-- LinePaddingIgnored. -/
theorem witness_padding : ([0x20, 0x09] : List Byte).all isWs = true ∧ ([] : List Byte).all isWs = true := by decide

/-- CommandTokenNormalised. -/
theorem witness_token : ([0x66, 0x6F, 0x6F] : List Byte) ≠ [] ∧
    ([0x66, 0x6F, 0x6F] : List Byte).all (fun b => isText b && !isWs b) = true ∧ argsV38.all isText = true := by decide

/-- LineAssembledFromBytes: a line with a carriage return, and one of 250 bytes (V35, V40). -/
theorem witness_assembly : polling.fe = .polling ∧ polling.busy = false ∧ undisturbed polling ∧ polling.llen = 0 ∧
    Memory.wf polling.lbuf ∧ byteLf ∉ ([0x50, 0x0D, 0x49, 0x4E, 0x47] : List Byte) ∧
    byteLf ∉ (List.replicate 250 0x58 : List Byte) ∧
    undisturbed { polling with rx := [0x50, 0x0D, 0x49, 0x4E, 0x47, byteLf] } := by decide

/-- DroppedBytesLeaveNoTrace, both causes. -/
theorem witness_dropped : undisturbed { polling with rx := [byteCr] } ∧
    ((0x4A : Byte) ≠ byteLf ∧ 200 ≤ ({ polling with llen := 200, rx := [0x4A] } : State).llen.toNat) ∧
    undisturbed { polling with llen := 200, rx := [0x4A] } := by decide

/-- ByteIsAppended, at both ends of the buffer. -/
theorem witness_append : undisturbed { polling with rx := [0x4A] } ∧ Memory.wf polling.lbuf ∧ (0x4A : Byte) ≠ byteCr ∧
    (0x4A : Byte) ≠ byteLf ∧ polling.llen.toNat < 200 ∧
    ({ polling with llen := 199, rx := [0x4A] } : State).llen.toNat < 200 := by decide

/-- ExpiredHoldStepsOrEndsRun, both clauses. -/
theorem witness_expired : undisturbed (expired 1) ∧ (expired 1).busy = true ∧ (expired 1).hold = 0 ∧
    (expired 1).remain ≠ 0 ∧ (expired 0).remain = 0 ∧ undisturbed (expired 0) := by decide

/-- TickCountsHoldDown, both clauses. -/
theorem witness_tick : undisturbed waiting ∧ waiting.busy = true ∧ waiting.hold ≠ 0 ∧ atRest polling ∧ polling.hold = 0 ∧
    atRest atPort := by decide

/-- StepcntStartsRun, both clauses at their boundaries. -/
theorem witness_stepcnt : atPort.busy = false ∧ (0 : Word32).toInt ≤ 0 ∧ (0x80000000 : Word32).toInt ≤ 0 ∧
    0 < (1 : Word32).toInt ∧ 0 < (0x7FFFFFFF : Word32).toInt := by decide

/-- SetdelayStoresPositive, its three clauses. -/
theorem witness_setdelay : holding.busy = true ∧ atPort.busy = false ∧ 0 < (1 : Word32).toInt ∧
    (0 : Word32).toInt ≤ 0 := by decide

/-- EveryOperationWaitsWhileBusy, RunEndsFromAnyMoment. -/
theorem witness_busy : holding.busy = true ∧ undisturbed holding ∧ waiting.busy = true ∧ undisturbed waiting := by decide

/-- SteprevBelowHalfStepDoesNothing: V13, and the same backward. -/
theorem witness_below_half : atPort.busy = false ∧ |(1 / 10000 : Rat)| * (4096 : Nat) < 1 / 2 ∧
    |(-1 / 10000 : Rat)| * (4096 : Nat) < 1 / 2 ∧ atPort.cfg.spr = 4096 := by
  refine ⟨by decide, ?_, ?_, by decide⟩ <;> norm_num [abs_of_nonneg, abs_of_nonpos]

/-- SteprevNegativeFlipsDirection: V19. -/
theorem witness_negative : (-1 / 4 : Rat) < 0 := by norm_num

/-- SteprevIssuesStepcnt: V12, the smallest total, and V17. -/
theorem witness_issues : atPort.busy = false ∧ atPort.cfg.spr = 4096 ∧ (0 : Rat) < 1 / 8192 ∧
    (1 : Word32).toInt = ⌊(1 / 8192 : Rat) * (4096 : Nat) + 1 / 2⌋ ∧
    (8192 : Word32).toInt = ⌊(2 : Rat) * (4096 : Nat) + 1 / 2⌋ := by
  refine ⟨by decide, by decide, by norm_num, ?_, ?_⟩
  · rw [show (1 : Word32).toInt = 1 from by decide]; norm_num
  · rw [show (8192 : Word32).toInt = 8192 from by decide, eq_comm, Int.floor_eq_iff]; norm_num

/-- SteprevLargeTotalRefused: V25. -/
theorem witness_large : atPort.busy = false ∧ atPort.cfg.spr = 4096 ∧ (0 : Rat) < 5242879999 / 10000 ∧
    ⌊(5242879999 / 10000 : Rat) * (4096 : Nat) + 1 / 2⌋ > 2 ^ 31 - 1 := by
  refine ⟨by decide, by decide, by norm_num, ?_⟩
  rw [gt_iff_lt, Int.lt_floor_iff]; norm_num

/-- RunMakesExactlyItsTransitions: the shortest and the longest run, the first moment and the last. -/
theorem witness_run : atPort.busy = false ∧ undisturbed atPort ∧ 0 < (1 : Word32).toInt ∧
    0 < (0x7FFFFFFF : Word32).toInt ∧ 1 ≤ (0x7FFFFFFF : Word32).toNat ∧ 5000 ≤ atPort.delay.toNat := by decide

/-- StepCommandRunsToItsAnswer: V53; that 8192 is the total is in `witness_issues`. -/
theorem witness_step_command : (withLine (ascii ['S', 'T', 'E', 'P', ' ', '2', ' ', '0'])).fe = .polling ∧
    undisturbed (withLine (ascii ['S', 'T', 'E', 'P', ' ', '2', ' ', '0'])) ∧
    (withLine (ascii ['S', 'T', 'E', 'P', ' ', '2', ' ', '0'])).busy = false ∧
    bufferedLine (withLine (ascii ['S', 'T', 'E', 'P', ' ', '2', ' ', '0'])) =
      some (ascii ['S', 'T', 'E', 'P', ' ', '2', ' ', '0']) ∧
    decodeLine (ascii ['S', 'T', 'E', 'P', ' ', '2', ' ', '0']) = .instr (.step (ascii ['2', ' ', '0'])) ∧
    checkStep (ascii ['2', ' ', '0']) = .ok (2, .backward) ∧ 0 < (8192 : Word32).toInt ∧
    (withLine (ascii ['S', 'T', 'E', 'P', ' ', '2', ' ', '0'])).cfg.spr = 4096 := by decide

/-- RunLeavesFrontEndAndOperandsAlone, RunIgnoresHostInput: a run of each owner. -/
theorem witness_run_step : undisturbed waiting ∧ waiting.busy = true ∧ after (fun t => t.hold) (step waiting) = some 0 ∧
    undisturbed holding ∧ holding.busy = true ∧ holding.fe = .absent ∧
    after (fun t => t.hold) (step holding) = some 99 := by decide

/-- MachineComesToRest, StepKeepsInv, InvStatesNeverFault: a state in a run meets the invariant. -/
theorem witness_inv_waiting : Inv waiting ∧ undisturbed waiting ∧ (waiting.fe = .absent → waiting.rx = []) ∧
    after (fun t => t.hold) (step waiting) = some 0 := by
  refine ⟨⟨by decide, by decide, by decide, by decide, by decide, by decide, by decide, by decide, by decide,
    fun _ => .inr ⟨1, .forward, rfl⟩, fun _ _ _ => rfl⟩, by decide, by decide, by decide⟩

/-- HealthcheckAnswersOk, PingAnswersPong, UnknownTokenIsReported: their lines (V45, V42, V67) and a polling front end. -/
theorem witness_lines : polling.fe = .polling ∧ polling.busy = false ∧
    (nameHealthcheck ++ ascii [' ', 'x']).all isText = true ∧
    upper (commandToken (trim (nameHealthcheck ++ ascii [' ', 'x']))) = nameHealthcheck ∧
    upper (commandToken (trim (ascii [' ', 'p', 'i', 'n', 'g']))) = namePing ∧
    (ascii ['f', 'o', 'o', ' ', 'b', 'a', 'r']).all isText = true ∧ trim (ascii ['f', 'o', 'o', ' ', 'b', 'a', 'r']) ≠ [] ∧
    upper (commandToken (trim (ascii ['f', 'o', 'o', ' ', 'b', 'a', 'r']))) ∉ registeredNames := by decide

/-- StepStartsItsRun: V68, with both flags. -/
theorem witness_step_run : polling.fe = .polling ∧ polling.busy = false ∧
    tokens (ascii ['+', '.', '5', ' ', '0', '1']) = [ascii ['+', '.', '5'], ascii ['0', '1']] ∧
    parseReal (ascii ['+', '.', '5']) = .value (mkRat 1 2) ∧ 0 < mkRat 1 2 ∧
    parseInt (ascii ['0', '1']) = .value (if true then 1 else 0) ∧
    parseInt (ascii ['0']) = .value (if false then 1 else 0) ∧ 0 < (2048 : Word32).toInt ∧
    (2048 : Word32).toInt = ⌊mkRat 1 2 * (polling.cfg.spr : Nat) + 1 / 2⌋ := by
  refine ⟨by decide, by decide, by decide, by decide, by decide, by decide, by decide, by decide, ?_⟩
  rw [show (2048 : Word32).toInt = 2048 from by decide, show polling.cfg.spr = 4096 from rfl, eq_comm, Int.floor_eq_iff,
    Rat.mkRat_eq_div]
  norm_num

/-- StepOfNoTransitionAnswersAtOnce: V55. -/
theorem witness_step_nothing : polling.fe = .polling ∧ polling.busy = false ∧
    tokens (ascii ['0', '.', '0', '0', '0', '1', ' ', '1']) = [ascii ['0', '.', '0', '0', '0', '1'], ascii ['1']] ∧
    parseReal (ascii ['0', '.', '0', '0', '0', '1']) = .value (mkRat 1 10000) ∧
    parseInt (ascii ['1']) = .value (if true then 1 else 0) ∧ mkRat 1 10000 * (polling.cfg.spr : Nat) < 1 / 2 := by
  refine ⟨by decide, by decide, by decide, by decide, by decide, ?_⟩
  rw [Rat.mkRat_eq_div, show polling.cfg.spr = 4096 from rfl]; norm_num

/-- StepAnswersAfterItsRun. -/
theorem witness_step_over : undisturbed { waiting with busy := false, hold := 0 } ∧
    ({ waiting with busy := false, hold := 0 } : State).fe = .awaiting 1 .forward := by decide

/-- StepUsageCauses, each cause alone: V57, V56, V59, V63, V58. -/
theorem witness_step_usage : polling.fe = .polling ∧ polling.busy = false ∧
    (tokens (ascii ['5'])).length ≠ 2 ∧ (tokens (ascii ['5', ' ', '1', ' ', '1'])).length ≠ 2 ∧
    tokens (ascii ['a', 'b', 'c', ' ', '1']) = [ascii ['a', 'b', 'c'], ascii ['1']] ∧
    parseReal (ascii ['a', 'b', 'c']) = .failure ∧ parseInt (ascii ['1']) = .value 1 ∧
    parseReal (ascii ['0']) = .value 0 ∧ parseReal (ascii ['-', '5']) = .value (-5) ∧ parseReal (ascii ['5']) = .value 5 ∧
    parseInt (ascii ['x']) = .failure ∧ parseInt (ascii ['2']) = .value 2 ∧
    parseInt (ascii ['-', '1']) = .value (-1) := by decide

/-- SpeedSetsDelay: the smallest and the largest delay. -/
theorem witness_speed : polling.fe = .polling ∧ polling.busy = false ∧
    tokens (ascii ['1']) = [ascii ['1']] ∧ parseInt (ascii ['1']) = .value 1 ∧
    parseInt (ascii ['2', '1', '4', '7', '4', '8', '3', '6', '4', '7']) = .value 2147483647 := by decide

/-- SpeedUsageCauses: V49, V50, V47, V48. -/
theorem witness_speed_usage : polling.fe = .polling ∧ polling.busy = false ∧
    tokens [] = [] ∧ tokens (ascii ['f', 'a', 's', 't']) = [ascii ['f', 'a', 's', 't']] ∧
    parseInt (ascii ['f', 'a', 's', 't']) = .failure ∧ parseInt (ascii ['0']) = .value 0 ∧
    parseInt (ascii ['-', '1', '0', '0']) = .value (-100) := by decide

/-- MarkedInputsAreRefused: V64, V65, V25 on the wire, V52, V51, and a line with a byte 0x80. -/
theorem witness_marked : polling.fe = .polling ∧ polling.busy = false ∧
    parseReal (ascii ['5', 'a', 'b', 'c']) = .refused .greyNumber ∧
    parseReal (ascii ['1']) = .value 1 ∧ parseInt (ascii ['1', '.', '0']) = .refused .greyNumber ∧
    parseInt (ascii ['1', 'e', '3']) = .refused .greyNumber ∧
    2 ≤ (tokens (ascii ['1', '0', '0', ' ', '2', '0', '0'])).length ∧
    checkStep (ascii ['5', '2', '4', '2', '8', '8', ' ', '1']) = .ok (524288, .forward) ∧
    refusalOf (exec (.step (ascii ['5', '2', '4', '2', '8', '8', ' ', '1'])) polling) = some .totalOutOfRange ∧
    bufferedLine (withLine [0x80]) = some [0x80] ∧ ([0x80] : List Byte).all isText = false := by decide

theorem witness_marked_total : ⌊(524288 : Rat) * (4096 : Nat) + 1 / 2⌋ > 2 ^ 31 - 1 := by
  rw [gt_iff_lt, Int.lt_floor_iff]; norm_num

/-- TokensAreMaximalRuns, RealTokenHasItsValue, IntTokenHasItsValue: `-12.50`, `.5`, `5.`, `+7`, the ends of the range. -/
theorem witness_numbers : (ascii ['1', '2']).all isDigit = true ∧ (ascii ['5', '0']).all isDigit = true ∧
    parseReal (ascii ['-', '1', '2', '.', '5', '0']) = .value (mkRat (-25) 2) ∧
    parseReal (ascii ['.', '5']) = .value (mkRat 1 2) ∧ parseReal (ascii ['5', '.']) = .value 5 ∧
    parseInt (ascii ['+', '7']) = .value 7 ∧
    parseInt (ascii ['-', '2', '1', '4', '7', '4', '8', '3', '6', '4', '8']) = .value (-2147483648) ∧
    parseInt (ascii ['-', '2', '1', '4', '7', '4', '8', '3', '6', '4', '9']) = .refused .integerOutOfRange ∧
    tokens (ascii [' ', '5', ' ', '1']) = [ascii ['5'], ascii ['1']] := by decide

/-- GreyNumbersAndFailures: one token of every clause. -/
theorem witness_grey : parseInt (ascii ['1', '0', '0', 'u', 's']) = .refused .greyNumber ∧
    parseReal (ascii ['1', ',', '5']) = .refused .greyNumber ∧ parseReal (ascii ['.', '5', 'x']) = .refused .greyNumber ∧
    parseReal (ascii ['-', 'I', 'n', 'f']) = .refused .greyNumber ∧ parseInt (ascii ['n', 'a', 'N']) = .refused .greyNumber ∧
    isSpecial (ascii ['x']) = false ∧ parseReal (ascii ['.']) = .failure ∧ parseReal (ascii ['-']) = .failure ∧
    parseReal (ascii ['+', '+', '1']) = .failure ∧ parseReal (ascii ['.', 'x']) = .failure := by decide

/-- RejectedCommandChangesNothing: a rejected line of each of the three kinds. -/
theorem witness_rejected :
    after (fun t => t.trace) (exec (.step []) polling) = some (polling.trace ++ [.line .stepUsage] ++ [.ind .failure]) ∧
    after (fun t => t.trace) (exec (.speed []) polling) = some (polling.trace ++ [.line .speedUsage] ++ [.ind .failure]) ∧
    after (fun t => t.trace) (exec (.unknown [0x46] []) polling) =
      some (polling.trace ++ [.line (.unknownCommand [0x46])] ++ [.ind .failure]) := by decide

/-- PortOperationsFrame, WireCommandsFrame: each of their instructions answers a next state. -/
theorem witness_frames : after (fun t => t.busy) (exec (.stepcnt 1 .forward) atPort) = some true ∧
    after (fun t => t.busy) (exec (.steprev 1 .forward) atPort) = some true ∧
    after (fun t => t.delay) (exec (.setdelay 7) atPort) = some 7 ∧
    after (fun t => t.busy) (exec (.healthcheck []) polling) = some false ∧
    after (fun t => t.busy) (exec (.ping []) polling) = some false ∧
    after (fun t => t.busy) (exec (.unknown [0x46] []) polling) = some false ∧
    after (fun t => t.delay) (exec (.speed [0x37]) polling) = some 7 ∧
    after (fun t => t.busy) (exec (.step [0x37, 0x20, 0x31]) polling) = some true := by decide

/-- PortStepRunsDecodedRequest. -/
theorem witness_port_step : ({ atPort with cmds := [.word 0x100000003] } : State).rst = false ∧
    ({ atPort with cmds := [.word 0x100000003] } : State).fe = .absent ∧
    ({ atPort with cmds := [.word 0x100000003] } : State).busy = false := by decide

/-- LineStepRunsDecodedCommand: a line that decodes to an instruction, and an empty one. -/
theorem witness_line_step : undisturbed (withLine (ascii ['p', 'i', 'n', 'g'])) ∧
    (withLine (ascii ['p', 'i', 'n', 'g'])).fe = .polling ∧ (withLine (ascii ['p', 'i', 'n', 'g'])).busy = false ∧
    bufferedLine (withLine (ascii ['p', 'i', 'n', 'g'])) = some (ascii ['p', 'i', 'n', 'g']) ∧
    decode (.line (ascii ['p', 'i', 'n', 'g'])) = .instr (.ping []) ∧ bufferedLine (withLine [0x20]) = some [0x20] ∧
    decode (.line [0x20]) = .empty := by decide

/-- FetchedTableWordIsRun, from a state in a run. -/
theorem witness_fetched : decodeTableWord 32 0x50494E47 = some (.ping []) ∧
    decodeTableWord 40 0x200000007 = some (.setdelay 7) ∧ Memory.wf waiting.lbuf := by decide

/-- RstForcesResetState, StartupLineComesFirst, SecondPresenterIsRefused. -/
theorem witness_reset : ({ holding with rst := true } : State).rst = true ∧ undisturbed State.reset ∧
    State.reset.busy = false ∧ State.reset.fe = .booting ∧ polling.rst = false ∧ polling.fe ≠ .absent ∧
    ({ polling with cmds := [.word 0] } : State).cmds = [.word 0] := by decide

/-- NextIndexFormula, PhaseAndPinsMoveTogether: a step that moves and one that does not. -/
theorem witness_moves : (expired 1).rst = false ∧ after (fun t => t.phase) (step (expired 1)) = some 0 ∧
    after (fun t => t.phase) (step holding) = some 3 ∧ holding.phase = 3 := by decide

/-- HostAndConstants: a step of a machine. -/
theorem witness_host : after (fun t => t.cfg) (step holding) = some holding.cfg := by decide

/-- ResetSatisfiesInv: the default parameters. -/
theorem witness_params : 0 < Config.params.spr ∧ Config.params.table.admissible = true := by decide

/-- ReachableStatesAreSafe: a state of a run, with a move of the host and a step in it. -/
theorem witness_reachable : ∃ t, step (hostMove (.present (.word 0x100000003)) (freshState Config.params false)) = .next t ∧
    Reachable t ∧ t.busy = true := by
  refine ⟨startedRun (freshState Config.params false) 3 .forward, rfl, ?_, by decide⟩
  exact .step (.host (.fresh Config.params false (by decide) (by decide)) (.present (.word 0x100000003))) rfl

/-- PinsLightOneOrTwoCoils: a state in which something has been stepped. -/
theorem witness_pins : Inv waiting ∧ ¬ (waiting.gpio = 0 ∧ waiting.phase = 0 ∧ waiting.busy = false) :=
  ⟨witness_inv_waiting.1, by decide⟩

end Sys2Proof.Tests.Slice0
end

section
/-! SUPPORT. The parameters no step writes, and the inputs a move of the host reaches (10_state R23, R24, R28,
20_memory R42, 70 R118). -/

namespace Sys2Proof.Machine

/-! ### `SPR` and `TABLE` are constants -/

@[simp] theorem appendByte_cfg (b : Byte) (s : State) : (appendByte b s).cfg = s.cfg := by
  rcases appendByte_cases b s with ⟨-, e⟩ | ⟨-, e⟩ <;> rw [e]

@[simp] theorem completeStep_cfg (m : Rat) (f : Dir) (s : State) : (completeStep m f s).cfg = s.cfg := rfl

@[simp] theorem applyReset_cfg (s : State) : (applyReset s).cfg = s.cfg := rfl

/-- No instruction writes the parameters. -/
theorem Effect.cfg_eq {i : Instr} {s t : State} (h : Effect i s t) : t.cfg = s.cfg := by
  cases h <;> rfl

/-- No step writes the parameters, `rst` included (10_state R23, R24). -/
theorem step_cfg {s t : State} (h : step s = .next t) : t.cfg = s.cfg := by
  cases step_cases h with
  | reset => exact applyReset_cfg s
  | runEnds => rfl
  | transition => exact adv_cfg s
  | holdTick => exact tick_cfg s
  | restTick => exact tick_cfg s
  | accept _ _ _ _ _ _ _ effect => exact effect.cfg_eq
  | boot => exact boot_cfg s
  | complete m f => exact completeStep_cfg m f s
  | ignoreCr => rfl
  | append b rest => exact appendByte_cfg b { s with rx := rest }
  | emptyLine => rfl
  | command _ _ _ _ _ _ _ _ _ _ _ effect => exact effect.cfg_eq

/-! ### The moves of the host -/

/-- A byte sent is appended, with or without a free value drawn, or the transport is full and the byte is lost
(70 R118, U6). -/
theorem receive_cases (b : Byte) (s : State) :
    (∃ d, receive b s = { s with rx := s.rx ++ [b], draws := d }) ∨
    (Config.rxCap ≤ s.rx.length ∧ receive b s = { s with draws := s.draws + 1 }) := by
  unfold receive bytesAvailable
  split
  · exact .inl ⟨s.draws, rfl⟩
  · next full =>
    split
    · exact .inl ⟨s.draws + 1, rfl⟩
    · exact .inr ⟨Nat.le_of_not_lt full, rfl⟩

/-- A move of the host reaches the inputs and the count of free values only (10_state R28, 70 R124). -/
theorem hostMove_frame (m : HostMove) (s : State) :
    hostMove m s = { s with rx := (hostMove m s).rx, cmds := (hostMove m s).cmds, rst := (hostMove m s).rst,
                            draws := (hostMove m s).draws } := by
  cases m with
  | send b => rcases receive_cases b s with ⟨d, e⟩ | ⟨-, e⟩ <;> simp only [hostMove, e]
  | present r => rfl
  | assertRst => rfl

/-- A byte sent stands after the unread bytes, or the transport was full and the byte is lost (20_memory R42, U6). -/
theorem hostMove_send_rx (b : Byte) (s : State) :
    (hostMove (.send b) s).rx = s.rx ++ [b] ∨ (Config.rxCap ≤ s.rx.length ∧ (hostMove (.send b) s).rx = s.rx) := by
  rcases receive_cases b s with ⟨d, e⟩ | ⟨full, e⟩
  · exact .inl (by simp only [hostMove, e])
  · exact .inr ⟨full, by simp only [hostMove, e]⟩

/-- Settles O55: the parameters by the cases of a step, the host's part by the cases of a move. -/
theorem hostAndConstants : Obligations.HostAndConstants :=
  ⟨fun _ _ h => step_cfg h, fun s m => hostMove_frame m s, fun s b => hostMove_send_rx b s⟩

end Sys2Proof.Machine
end

section
/-! SUPPORT. `PHASE` and the pins: how a step moves them together, and what an admissible table puts on the pins
(20_memory R33, R38, R39, 40_stepping R68). -/

namespace Sys2Proof

/-- 20_memory R33 (b), (c), (d) of a row between its two neighbours. -/
theorem Row.fits_iff {before row after : Row} :
    Row.fits before row after = true ↔
      row.adjacentPairs = true ∧ row.onCount ≠ after.onCount ∧ (row.onCount = 1 ∨ row = before ||| after) := by
  simp [Row.fits, and_assoc]

end Sys2Proof

namespace Sys2Proof.Machine

/-! ### The pin writes of a record -/

@[simp] theorem pinWrites_nil : pinWrites [] = [] := rfl
@[simp] theorem pinWrites_pins (n : Nat) (v : Row) (os : List Output) :
    pinWrites (.pins n v :: os) = (n, v) :: pinWrites os := rfl
@[simp] theorem pinWrites_line (r : Response) (os : List Output) : pinWrites (.line r :: os) = pinWrites os := rfl
@[simp] theorem pinWrites_ind (k : Indication) (os : List Output) : pinWrites (.ind k :: os) = pinWrites os := rfl
@[simp] theorem pinWrites_reset (n : Nat) (os : List Output) : pinWrites (.reset n :: os) = pinWrites os := rfl

@[simp] theorem pinWrites_append (os ps : List Output) : pinWrites (os ++ ps) = pinWrites os ++ pinWrites ps := by
  induction os with
  | nil => rfl
  | cons o os ih => cases o <;> simp [ih]

@[simp] theorem pinWrites_map_line (rs : List Response) : pinWrites (rs.map Output.line) = [] := by
  induction rs with
  | nil => rfl
  | cons r rs ih => simp [ih]

/-! ### `PHASE` and the pins stay or move together -/

/-- `PHASE` and the pins are as before and no pin was written. -/
def PinsStay (s t : State) : Prop :=
  t.phase = s.phase ∧ t.gpio = s.gpio ∧ pinWrites t.trace = pinWrites s.trace

/-- `PHASE` has moved one place in the direction of the new `DIR`, and one write has put the row there on the pins. -/
def PinsMove (s t : State) : Prop :=
  t.phase = nextIndex s.phase t.dir ∧ t.gpio = memRead s.cfg.table t.phase ∧
    pinWrites t.trace = pinWrites s.trace ++ [(s.now, t.gpio)]

/-- Events other than pin writes may join the record while the pins stay. -/
theorem pinsStay_of_trace_append {s t : State} {os : List Output} (hphase : t.phase = s.phase) (hgpio : t.gpio = s.gpio)
    (htrace : t.trace = s.trace ++ os) (hos : pinWrites os = []) : PinsStay s t :=
  ⟨hphase, hgpio, by rw [htrace, pinWrites_append, hos, List.append_nil]⟩

/-- `ADV` moves `PHASE` and the pins in one write (40_stepping R68). -/
theorem adv_pinsMove (s : State) : PinsMove s (adv s) := ⟨rfl, rfl, by simp⟩

/-- A line byte is no transition. -/
theorem appendByte_pinsStay (b : Byte) (s : State) : PinsStay s (appendByte b s) := by
  rcases appendByte_cases b s with ⟨-, e⟩ | ⟨-, e⟩ <;> rw [e] <;> exact ⟨rfl, rfl, rfl⟩

/-- An instruction moves `PHASE` and the pins when it starts a run, by the run's first transition, and at no other time. -/
theorem Effect.pinsStay_or_pinsMove {i : Instr} {s t : State} (h : Effect i s t) : PinsStay s t ∨ PinsMove s t := by
  cases h with
  | idle => exact .inl ⟨rfl, rfl, rfl⟩
  | run n d => exact .inr (adv_pinsMove { s with dir := d, remain := n, busy := true })
  | store => exact .inl ⟨rfl, rfl, rfl⟩
  | answer rs => exact .inl (pinsStay_of_trace_append rfl rfl rfl (by simp))
  | reject => exact .inl (pinsStay_of_trace_append rfl rfl rfl rfl)
  | wireRun m f d n => exact .inr (adv_pinsMove { s with fe := .awaiting m f, dir := d, remain := n, busy := true })
  | wireStore => exact .inl (pinsStay_of_trace_append rfl rfl rfl rfl)

/-- Without `rst` a step leaves `PHASE` and the pins alone or makes one transition (20_memory R38, R39). -/
theorem step_pinsStay_or_pinsMove {s t : State} (hrst : s.rst = false) (h : step s = .next t) :
    PinsStay s t ∨ PinsMove s t := by
  cases step_cases h with
  | reset asserted => rw [hrst] at asserted; cases asserted
  | runEnds => exact .inl ⟨rfl, rfl, rfl⟩
  | transition => exact .inr (adv_pinsMove s)
  | holdTick => exact .inl ⟨rfl, rfl, rfl⟩
  | restTick => exact .inl ⟨rfl, rfl, rfl⟩
  | accept _ _ _ _ _ _ _ effect => exact effect.pinsStay_or_pinsMove
  | boot => exact .inl (pinsStay_of_trace_append rfl rfl rfl rfl)
  | complete m f =>
    rw [completeStep_eq]
    exact .inl (pinsStay_of_trace_append rfl rfl rfl rfl)
  | ignoreCr => exact .inl ⟨rfl, rfl, rfl⟩
  | append b rest => exact .inl (appendByte_pinsStay b { s with rx := rest })
  | emptyLine => exact .inl ⟨rfl, rfl, rfl⟩
  | command _ _ _ _ _ _ _ _ _ _ _ effect => exact effect.pinsStay_or_pinsMove

/-- Settles O54, by the cases of a step: every one of them but `rst` is no transition or exactly one `ADV`. -/
theorem phaseAndPinsMoveTogether : Obligations.PhaseAndPinsMoveTogether :=
  fun _ _ hrst h => step_pinsStay_or_pinsMove hrst h

/-! ### The rows of an admissible table -/

@[simp] theorem nextIndex_backward_forward (i : Index) : nextIndex (nextIndex i .backward) .forward = i :=
  BitVec.sub_add_cancel i 1

/-- At every index of an admissible table the row fits its two neighbours, the wrap included (20_memory R33). -/
theorem fits_of_admissible {table : PhaseTable} (h : table.admissible = true) (i : Index) :
    Row.fits (memRead table (nextIndex i .backward)) (memRead table i) (memRead table (nextIndex i .forward)) = true := by
  simp only [PhaseTable.admissible, Bool.and_eq_true] at h
  obtain ⟨⟨⟨⟨⟨⟨⟨fits0, fits1⟩, fits2⟩, fits3⟩, fits4⟩, fits5⟩, fits6⟩, fits7⟩ := h
  have index_cases : i = 0 ∨ i = 1 ∨ i = 2 ∨ i = 3 ∨ i = 4 ∨ i = 5 ∨ i = 6 ∨ i = 7 := by decide +revert
  rcases index_cases with rfl | rfl | rfl | rfl | rfl | rfl | rfl | rfl
  · exact fits0
  · exact fits1
  · exact fits2
  · exact fits3
  · exact fits4
  · exact fits5
  · exact fits6
  · exact fits7

/-- A row lights one coil or two adjacent ones (20_memory R33 (b)). -/
theorem adjacentPairs_of_admissible {table : PhaseTable} (h : table.admissible = true) (i : Index) :
    (memRead table i).adjacentPairs = true := by
  obtain ⟨adjacent, -, -⟩ := Row.fits_iff.mp (fits_of_admissible h i)
  exact adjacent

/-- Single and dual activation alternate going forward (20_memory R33 (c)). -/
theorem onCount_ne_forward {table : PhaseTable} (h : table.admissible = true) (i : Index) :
    (memRead table i).onCount ≠ (memRead table (nextIndex i .forward)).onCount := by
  obtain ⟨-, alternates, -⟩ := Row.fits_iff.mp (fits_of_admissible h i)
  exact alternates

/-- Single and dual activation alternate going backward: the law of going forward, one place before. -/
theorem onCount_ne_backward {table : PhaseTable} (h : table.admissible = true) (i : Index) :
    (memRead table i).onCount ≠ (memRead table (nextIndex i .backward)).onCount := by
  have forward := onCount_ne_forward h (nextIndex i .backward)
  rw [nextIndex_backward_forward] at forward
  exact forward.symm

/-- Settles O60: once something has been stepped the pins show the row of `PHASE`, a row of an admissible table. -/
theorem pinsLightOneOrTwoCoils : Obligations.PinsLightOneOrTwoCoils := by
  intro s inv stepped
  have gpio_eq : s.gpio = memRead s.cfg.table s.phase := inv.pins.resolve_right stepped
  rw [gpio_eq]
  exact ⟨adjacentPairs_of_admissible inv.table_ok s.phase, onCount_ne_forward inv.table_ok s.phase,
    onCount_ne_backward inv.table_ok s.phase⟩

end Sys2Proof.Machine
end

section
/-! SUPPORT. Decode and encode agree: the fields of a port word, and the command token and the argument string of a line
(30_encoding R49 to R61). -/

namespace Sys2Proof

/-! ### Port words -/

/-- A number put together from the three fields is the port word of these fields (30_encoding R49). -/
theorem ofNat_fields (op dir : Bool) (arg : Word32) :
    BitVec.ofNat 34 (op.toNat * 2 ^ 33 + dir.toNat * 2 ^ 32 + arg.toNat) =
      portWord (BitVec.ofBool op) (BitVec.ofBool dir) arg := by
  rw [← BitVec.toNat_ofBool op, ← BitVec.toNat_ofBool dir, ← portWord_toNat, BitVec.ofNat_toNat, BitVec.setWidth_eq]

/-- Every port word is the word of its own three fields (30_encoding R49, R50). -/
theorem portWord_own_fields (w : CmdWord) :
    portWord (BitVec.ofBool (w.getLsbD 33)) (BitVec.ofBool (w.getLsbD 32)) (w.extractLsb' 0 32) = w := by
  apply BitVec.eq_of_toNat_eq
  have bits : w.toNat < 2 ^ 34 := w.isLt
  rw [portWord_toNat, BitVec.toNat_ofBool, BitVec.toNat_ofBool, BitVec.extractLsb'_toNat, BitVec.getLsbD,
    BitVec.getLsbD, Nat.toNat_testBit, Nat.toNat_testBit, Nat.shiftRight_zero]
  omega

/-- The mask of 34 bits but bit 32 clears the direction bit and nothing else (30_encoding R51). -/
theorem portWord_and_mask (op dir : BitVec 1) (arg : Word32) :
    portWord op dir arg &&& 0x2FFFFFFFF = portWord op 0 arg := by
  rw [show (0x2FFFFFFFF : CmdWord) = portWord 1 0 (BitVec.allOnes 32) by decide]
  change (op ++ dir ++ arg &&& 1#1 ++ 0#1 ++ BitVec.allOnes 32 : BitVec (1 + 1 + 32)) = op ++ 0#1 ++ arg
  rw [BitVec.and_append, BitVec.and_append, BitVec.and_allOnes, BitVec.and_zero,
    show op &&& 1#1 = op from BitVec.and_allOnes]

theorem ofBit_toBit (dir : Dir) : Dir.ofBit (dir.toBit == 1) = dir := by cases dir <;> rfl

theorem toBit_ofBit (dir : Bool) : (Dir.ofBit (BitVec.ofBool dir == 1)).toBit = BitVec.ofBool dir := by
  cases dir <;> rfl

/-- Encoding what a word of three fields decodes to gives the word, or the one with its ignored bit 0. -/
theorem encode_decodeWord_portWord (op dir : Bool) (arg : Word32) :
    encode (decodeWord (portWord (BitVec.ofBool op) (BitVec.ofBool dir) arg)) =
      .port (.word (portWord (BitVec.ofBool op) (if op then 0 else BitVec.ofBool dir) arg)) := by
  rw [decodeWord_portWord]
  cases op with
  | true => rfl
  | false => exact congrArg (fun bit => Presented.port (.word (portWord 0 bit arg))) (toBit_ofBit dir)

/-- Settles O2: a word is its three fields, and the decoder reads exactly these. -/
theorem portWordFields : Obligations.PortWordFields := by
  refine ⟨fun op dir arg => ?_, fun w => ⟨_, _, _, (portWord_own_fields w).symm.trans (ofNat_fields _ _ _).symm⟩⟩
  rw [ofNat_fields, decodeRequest, decodeWord_portWord]
  cases op <;> cases dir <;> rfl

/-- Settles O3: the word is put together from its fields, and of these only the ignored bit is not written back. -/
theorem portEncodeOfDecode : Obligations.PortEncodeOfDecode := by
  intro w
  have fields := encode_decodeWord_portWord (w.getLsbD 33) (w.getLsbD 32) (w.extractLsb' 0 32)
  rw [portWord_own_fields] at fields
  rw [decodeRequest, fields]
  by_cases setdelay : w.getLsbD 33 = true
  · rw [if_pos setdelay, if_pos setdelay, ← portWord_and_mask _ (BitVec.ofBool (w.getLsbD 32)), portWord_own_fields]
  · rw [if_neg setdelay, if_neg setdelay, portWord_own_fields]

/-! ### Lines -/

/-- Padding by `WS` bytes is text and is trimmed away (30_encoding R56, R60). -/
theorem decodeLine_padding {pre l post : List Byte} (hpre : pre.all isWs = true) (hpost : post.all isWs = true) :
    decodeLine (pre ++ l ++ post) = decodeLine l := by
  have text_of_ws : ∀ {ws : List Byte}, ws.all isWs = true → ws.all isText = true := fun h =>
    List.all_eq_true.mpr fun b hb => isText_of_isWs (List.all_eq_true.mp h b hb)
  unfold decodeLine
  rw [trim_padding hpre hpost, List.all_append, List.all_append, text_of_ws hpre, text_of_ws hpost, Bool.true_and,
    Bool.and_true]

/-- Settles O5: the bytes of the padding are text, and trimming takes them away. -/
theorem linePaddingIgnored : Obligations.LinePaddingIgnored := fun _ _ _ hpre hpost => decodeLine_padding hpre hpost

/-- What the decoder reads from a text line whose command token is known (30_encoding R57 to R59). -/
theorem decodeLine_of_token {line token args : List Byte} (ht : token ≠ []) (htext : line.all isText = true)
    (htoken : commandToken (trim line) = token) (hargs : argString (trim line) = args) :
    decodeLine line = .instr (dispatch (upper token) args) := by
  have not_empty : trim line ≠ [] := fun h => ht (by rw [← htoken, h]; rfl)
  rw [decodeLine, if_pos htext, if_neg not_empty, htoken, hargs]

theorem token_all {token : List Byte} (h : token.all (fun b => isText b && !isWs b) = true) :
    token.all isText = true ∧ token.all (fun b => !isWs b) = true := by
  simp only [List.all_eq_true, Bool.and_eq_true] at h ⊢
  exact ⟨fun b hb => (h b hb).1, fun b hb => (h b hb).2⟩

/-- A token, a `WS` byte and an argument text. -/
theorem decodeLine_token_args {token args : List Byte} {w : Byte} (ht : token ≠ [])
    (htoken : token.all (fun b => isText b && !isWs b) = true) (hargs : args.all isText = true) (hw : isWs w = true) :
    decodeLine (token ++ w :: args) = .instr (dispatch (upper token) (trim args)) := by
  obtain ⟨text, notWs⟩ := token_all htoken
  obtain ⟨token_eq, args_eq⟩ := token_and_args (args := args) ht notWs hw
  refine decodeLine_of_token ht ?_ token_eq args_eq
  rw [List.all_append, List.all_cons, text, isText_of_isWs hw, hargs]
  rfl

/-- A token alone. -/
theorem decodeLine_token {token : List Byte} (ht : token ≠ [])
    (htoken : token.all (fun b => isText b && !isWs b) = true) :
    decodeLine token = .instr (dispatch (upper token) []) := by
  obtain ⟨text, notWs⟩ := token_all htoken
  obtain ⟨token_eq, args_eq⟩ := token_alone ht notWs
  exact decodeLine_of_token ht text token_eq args_eq

/-- Upper-casing lowers the bytes of the small letters by 0x20 and leaves the others (30_encoding R58). -/
theorem upperByte_eq (b : Byte) :
    upperByte b = if 0x61 ≤ b.toNat ∧ b.toNat ≤ 0x7A then BitVec.ofNat 8 (b.toNat - 0x20) else b := by
  have letter : ((0x61 ≤ b && b ≤ 0x7A) = true) ↔ 0x61 ≤ b.toNat ∧ b.toNat ≤ 0x7A := by
    simp [BitVec.le_def]
  unfold upperByte
  by_cases h : 0x61 ≤ b.toNat ∧ b.toNat ≤ 0x7A
  · rw [if_pos (letter.mpr h), if_pos h]
    bv_omega
  · rw [if_neg (mt letter.mp h), if_neg h]

/-- Settles O6, from the two forms of a command line and the upper-casing of a byte. -/
theorem commandTokenNormalised : Obligations.CommandTokenNormalised := fun _ _ ht htoken hargs =>
  ⟨fun _ hw => decodeLine_token_args ht htoken hargs hw, decodeLine_token ht htoken, upperByte_eq⟩

/-! ### The dispatch table -/

/-- A token that is no registered name falls through the look-up (30_encoding R61). -/
theorem dispatch_unknown {token : List Byte} (h : token ∉ registeredNames) (args : List Byte) :
    dispatch token args = .unknown token args := by
  simp only [registeredNames, List.mem_cons, List.not_mem_nil, or_false, not_or] at h
  obtain ⟨notHealthcheck, notPing, notStep, notSpeed⟩ := h
  rw [dispatch, if_neg notHealthcheck, if_neg notPing, if_neg notStep, if_neg notSpeed]

/-- The five outcomes of the look-up, each with the token it is for (30_encoding R59, R61). -/
theorem dispatch_cases (token args : List Byte) :
    (token = nameHealthcheck ∧ dispatch token args = .healthcheck args) ∨
    (token = namePing ∧ dispatch token args = .ping args) ∨
    (token = nameStep ∧ dispatch token args = .step args) ∨
    (token = nameSpeed ∧ dispatch token args = .speed args) ∨
    (token ∉ registeredNames ∧ dispatch token args = .unknown token args) := by
  by_cases h : token ∈ registeredNames
  · simp only [registeredNames, List.mem_cons, List.not_mem_nil, or_false] at h
    rcases h with rfl | rfl | rfl | rfl
    · exact .inl ⟨rfl, rfl⟩
    · exact .inr (.inl ⟨rfl, rfl⟩)
    · exact .inr (.inr (.inl ⟨rfl, rfl⟩))
    · exact .inr (.inr (.inr (.inl ⟨rfl, rfl⟩)))
  · exact .inr (.inr (.inr (.inr ⟨h, dispatch_unknown h args⟩)))

/-- Settles O7: in each outcome of the look-up one equation holds, and the other four name another instruction. -/
theorem dispatchIsExactMatch : Obligations.DispatchIsExactMatch := by
  intro token args
  rcases dispatch_cases token args with ⟨rfl, e⟩ | ⟨rfl, e⟩ | ⟨rfl, e⟩ | ⟨rfl, e⟩ | ⟨unregistered, e⟩
  · simp +decide [e]
  · simp +decide [e]
  · simp +decide [e]
  · simp +decide [e]
  · rw [e]
    simp only [registeredNames, List.mem_cons, List.not_mem_nil, or_false, not_or] at unregistered
    simp [registeredNames, unregistered]

/-! ### The round trip -/

/-- The four names are normalised tokens (30_encoding R61). -/
theorem registeredNames_wellFormed : registeredNames.all tokenWellFormed = true := by decide

/-- A well-formed token is not empty, is text without `WS`, and is its own upper case. -/
theorem tokenWellFormed_iff {token : List Byte} :
    tokenWellFormed token = true ↔
      token ≠ [] ∧ token.all (fun b => isText b && !isWs b) = true ∧ upper token = token := by
  have normalised : upper token = token ↔ ∀ b ∈ token, upperByte b = b := by
    simpa [upper] using List.map_inj_left (l := token) (f := upperByte) (g := id)
  simp [tokenWellFormed, normalised, forall_and, and_assoc]

/-- The line of a normalised token and a trimmed argument text decodes to the dispatch of the two (30_encoding R57). -/
theorem decodeLine_encodeCommand {name args : List Byte} (hname : tokenWellFormed name = true)
    (hargs : argsWellFormed args = true) : decodeLine (encodeCommand name args) = .instr (dispatch name args) := by
  obtain ⟨notNil, token, normalised⟩ := tokenWellFormed_iff.mp hname
  obtain ⟨text, trimmed⟩ : args.all isText = true ∧ trim args = args := by simpa [argsWellFormed] using hargs
  cases args with
  | nil => rw [encodeCommand, decodeLine_token notNil token, normalised]
  | cons b bs =>
    rw [encodeCommand, decodeLine_token_args notNil token text rfl, normalised, trimmed]

/-- The line of a registered name. -/
theorem decodeLine_registered {name args : List Byte} (hname : name ∈ registeredNames)
    (hwf : (argsWellFormed args && lineFits name args) = true) :
    decodeLine (encodeCommand name args) = .instr (dispatch name args) :=
  decodeLine_encodeCommand (List.all_eq_true.mp registeredNames_wellFormed name hname) (Bool.and_eq_true_iff.mp hwf).1

/-- Settles O1, by the rows of the opcode table: a port word by its fields, a call as it stands, a line by its token. -/
theorem decodeEncodeRoundTrip : Obligations.DecodeEncodeRoundTrip := by
  intro i wf
  cases i with
  | stepcnt steps dir =>
    rw [encode, decode, decodeRequest, decodeWord_portWord, ofBit_toBit]; rfl
  | setdelay us => rw [encode, decode, decodeRequest, decodeWord_portWord]; rfl
  | steprev revs dir => rfl
  | healthcheck args => exact decodeLine_registered (by decide) wf
  | ping args => exact decodeLine_registered (by decide) wf
  | step args => exact decodeLine_registered (by decide) wf
  | speed args => exact decodeLine_registered (by decide) wf
  | unknown token args =>
    simp only [Instr.wellFormed, Bool.and_eq_true, Bool.not_eq_true'] at wf
    obtain ⟨⟨⟨token_wf, unregistered⟩, args_wf⟩, -⟩ := wf
    rw [encode, decode, decodeLine_encodeCommand token_wf args_wf, dispatch_unknown (by simpa using unregistered)]

/-- Settles O4: the words and lines of the test vectors, by evaluation. -/
theorem wordsFromTheSpecDecode : Obligations.WordsFromTheSpecDecode := by
  unfold Obligations.WordsFromTheSpecDecode
  decide

end Sys2Proof
end

section
/-! SUPPORT. The bytes of a line on their way from the transport to its processing (30_encoding R53 to R60, 20_memory
R41). -/

namespace Sys2Proof.Machine

/-! ### One received byte -/

theorem assemble_carriageReturn (s : State) : assemble byteCr s = .next s := if_pos rfl

theorem assemble_lineByte {b : Byte} (hcr : b ≠ byteCr) (hlf : b ≠ byteLf) (s : State) :
    assemble b s = .next (appendByte b s) := by
  rw [assemble, if_neg hcr, if_neg hlf]

/-- A full buffer drops the byte (60_exceptions R92). -/
theorem appendByte_full {s : State} (full : Config.lineMax ≤ s.llen.toNat) (b : Byte) : appendByte b s = s :=
  if_neg (Nat.not_lt.mpr full)

/-- A buffer with room stores the byte at `LLEN` (20_memory R41). -/
theorem appendByte_room {s : State} (room : s.llen.toNat < Config.lineMax) (b : Byte) :
    appendByte b s = { s with lbuf := Memory.write s.lbuf s.llen.toNat b, llen := s.llen + 1 } :=
  if_pos room

/-- Only the line buffer and its length can change. -/
theorem appendByte_frame (b : Byte) (s : State) :
    appendByte b s = { s with lbuf := (appendByte b s).lbuf, llen := (appendByte b s).llen } := by
  rcases appendByte_cases b s with ⟨-, e⟩ | ⟨-, e⟩ <;> rw [e]

/-- The unread bytes are no part of the line buffer. -/
theorem appendByte_rx (b : Byte) (s : State) (bytes : List Byte) :
    { appendByte b s with rx := bytes } = appendByte b { s with rx := bytes } := by
  unfold appendByte
  split <;> rfl

/-- Settles O9: a carriage return ends the assembly of the byte, and a full buffer drops any other but a line feed. -/
theorem droppedBytesLeaveNoTrace : Obligations.DroppedBytesLeaveNoTrace := by
  intro s b rest polls idle quiet unread dropped
  rw [step_of_polling quiet idle polls unread]
  rcases dropped with rfl | ⟨hlf, full⟩
  · exact assemble_carriageReturn _
  · by_cases hcr : b = byteCr
    · subst hcr; exact assemble_carriageReturn _
    · rw [assemble_lineByte hcr hlf, appendByte_full (s := { s with rx := rest }) full]

/-- Settles O10: the state is the one with the byte written at `LLEN`, and the laws of byte memory say how it reads. -/
theorem byteIsAppended : Obligations.ByteIsAppended := by
  intro s b rest polls idle quiet unread wf hcr hlf room
  refine ⟨{ s with rx := rest, lbuf := Memory.write s.lbuf s.llen.toNat b, llen := s.llen + 1 }, ?_, rfl, llen_succ room,
    Memory.read_write_same wf.1 _ b, fun a ha => Memory.read_write_other b ha.symm, Memory.wf_write b wf room⟩
  rw [step_of_polling quiet idle polls unread, assemble_lineByte hcr hlf,
    appendByte_room (s := { s with rx := rest }) room]

/-! ### The bytes of a line, one after the other -/

/-- The line assembly's store for each of some bytes, as `placeLine` writes them. -/
def storeBytes (bs : List Byte) (s : State) : State := bs.foldl (fun s b => appendByte b s) s

@[simp] theorem storeBytes_nil (s : State) : storeBytes [] s = s := rfl
@[simp] theorem storeBytes_cons (b : Byte) (bs : List Byte) (s : State) :
    storeBytes (b :: bs) s = storeBytes bs (appendByte b s) := rfl

/-- Only the line buffer and its length can change. -/
theorem storeBytes_frame (bs : List Byte) (s : State) :
    storeBytes bs s = { s with lbuf := (storeBytes bs s).lbuf, llen := (storeBytes bs s).llen } := by
  induction bs generalizing s with
  | nil => rfl
  | cons b bs ih =>
    exact (ih (appendByte b s)).trans
      (congrArg (fun t : State => { t with lbuf := (storeBytes (b :: bs) s).lbuf, llen := (storeBytes (b :: bs) s).llen })
        (appendByte_frame b s))

theorem storeBytes_rx (bs : List Byte) (s : State) (bytes : List Byte) :
    { storeBytes bs s with rx := bytes } = storeBytes bs { s with rx := bytes } := by
  induction bs generalizing s with
  | nil => rfl
  | cons b bs ih => exact (ih (appendByte b s)).trans (congrArg (storeBytes bs) (appendByte_rx b s bytes))

theorem storeBytes_append (bs cs : List Byte) (s : State) :
    storeBytes (bs ++ cs) s = storeBytes cs (storeBytes bs s) := List.foldl_append

/-- The line buffer is in its canonical form and holds `line`. -/
def LineHeld (s : State) (line : List Byte) : Prop := Memory.wf s.lbuf ∧ bufferedLine s = some line

/-- What is in the buffer has `LLEN` bytes, and at most 200 (10_state R26). -/
theorem length_of_bufferedLine {s : State} {line : List Byte} (h : bufferedLine s = some line) :
    line = (List.range s.llen.toNat).map (Memory.read s.lbuf) ∧ line.length = s.llen.toNat ∧
      line.length ≤ Config.lineMax := by
  unfold bufferedLine at h
  split at h
  · next fits =>
    obtain rfl := Option.some.inj h
    simpa using fits
  · cases h

theorem lineHeld_nil {s : State} (wf : Memory.wf s.lbuf) (h : s.llen = 0) : LineHeld s [] :=
  ⟨wf, by simp [bufferedLine, h]⟩

/-- One more byte is held, if the buffer had room for it (30_encoding R54). -/
theorem LineHeld.appendByte {s : State} {line : List Byte} (h : LineHeld s line) (b : Byte) :
    LineHeld (appendByte b s) ((line ++ [b]).take Config.lineMax) := by
  obtain ⟨wf, held⟩ := h
  obtain ⟨line_eq, length_eq, fits⟩ := length_of_bufferedLine held
  by_cases room : s.llen.toNat < Config.lineMax
  · refine ⟨?_, ?_⟩
    · rw [appendByte_room room]
      exact Memory.wf_write b wf room
    · rw [bufferedLine_append wf room, ← line_eq, List.take_of_length_le]
      simp only [List.length_append, List.length_singleton]
      omega
  · rw [appendByte_full (Nat.not_lt.mp room), List.take_left' (by omega)]
    exact ⟨wf, held⟩

/-- The first 200 of the bytes are held (30_encoding R54, R55). -/
theorem LineHeld.storeBytes {s : State} {line : List Byte} (h : LineHeld s line) (bs : List Byte) :
    LineHeld (storeBytes bs s) ((line ++ bs).take Config.lineMax) := by
  induction bs generalizing s line with
  | nil =>
    obtain ⟨-, -, fits⟩ := length_of_bufferedLine h.2
    rwa [List.append_nil, List.take_of_length_le fits]
  | cons b bs ih =>
    have take_take_append : ((line ++ [b]).take Config.lineMax ++ bs).take Config.lineMax =
        (line ++ b :: bs).take Config.lineMax := by
      rw [List.append_cons line b bs, List.take_append, List.take_append (l₁ := line ++ [b]), List.take_take, Nat.min_self,
        List.length_take]
      congr 2
      omega
    rw [← take_take_append]
    exact ih (h.appendByte b)

/-! ### From the transport to the processing of the line -/

/-- The front end is at its polling loop and nothing keeps it from reading: no run, no `rst`, no second presenter. -/
def Polls (s : State) : Prop := undisturbed s ∧ s.busy = false ∧ s.fe = .polling

/-- Storing bytes keeps the front end polling, whatever is unread. -/
theorem polls_storeBytes {s : State} (h : Polls s) (bs bytes : List Byte) :
    Polls (storeBytes bs { s with rx := bytes }) := by
  rw [storeBytes_frame]
  exact h

/-- A byte of a line is taken and stored if it is no carriage return (30_encoding R54). -/
theorem step_of_lineByte {s : State} {b : Byte} {rest : List Byte} (h : Polls s) (unread : s.rx = b :: rest)
    (hlf : b ≠ byteLf) : step s = .next (storeBytes ([b].filter (· != byteCr)) { s with rx := rest }) := by
  obtain ⟨quiet, idle, polls⟩ := h
  rw [step_of_polling quiet idle polls unread]
  by_cases hcr : b = byteCr
  · subst hcr; exact assemble_carriageReturn _
  · rw [assemble_lineByte hcr hlf, List.filter_cons_of_pos (by simpa using hcr)]
    rfl

/-- The bytes of a line are taken one a step, and those that are no carriage return are stored (30_encoding R54). -/
theorem run_lineBytes {bs : List Byte} (noLf : byteLf ∉ bs) {s : State} {rest : List Byte} (h : Polls s)
    (unread : s.rx = bs ++ rest) :
    run bs.length s = .next (storeBytes (bs.filter (· != byteCr)) { s with rx := rest }) := by
  induction bs generalizing s with
  | nil => rw [← (show s.rx = rest from unread)]; rfl
  | cons b bs ih =>
    obtain ⟨hlf, noLf⟩ := not_or.mp (mt List.mem_cons.mpr noLf)
    have filtered : (b :: bs).filter (· != byteCr) = [b].filter (· != byteCr) ++ bs.filter (· != byteCr) :=
      List.filter_append [b] bs
    rw [List.length_cons, run_succ _ (step_of_lineByte h unread (Ne.symm hlf)),
      ih noLf (polls_storeBytes h _ _) (by rw [storeBytes_frame]; rfl), filtered, storeBytes_append, storeBytes_rx]

/-- A line feed completes the line that is held: the buffer is reset and the line processed (30_encoding R54). -/
theorem step_of_lineFeed {s : State} {line rest : List Byte} (h : Polls s) (unread : s.rx = byteLf :: rest)
    (held : bufferedLine s = some line) : step s = processLine line { s with rx := rest, llen := 0 } := by
  obtain ⟨quiet, idle, polls⟩ := h
  rw [step_of_polling quiet idle polls unread]
  exact assemble_lineFeed (s := { s with rx := rest }) held

theorem run_one (s : State) : run 1 s = step s := by
  rw [run]
  cases step s <;> rfl

/-- Settles O8: by induction over the bytes they are stored one a step, so that at the line feed the buffer holds the first
200 that are no carriage return. -/
theorem lineAssembledFromBytes : Obligations.LineAssembledFromBytes := by
  intro s bs rest polls idle quiet empty wf noLf unread
  have h : Polls s := ⟨quiet, idle, polls⟩
  obtain ⟨wf', held⟩ := (lineHeld_nil (s := { s with rx := byteLf :: rest }) wf empty).storeBytes (bs.filter (· != byteCr))
  refine ⟨_, wf', ?_⟩
  rw [run_add (run_lineBytes noLf h unread), run_one, step_of_lineFeed (polls_storeBytes h _ _) (by rw [storeBytes_frame]) held,
    List.nil_append, storeBytes_frame]
  rfl

/-- Settles O48: a line feed completes the line, and what the line decodes to says how it is processed. -/
theorem lineStepRunsDecodedCommand : Obligations.LineStepRunsDecodedCommand := by
  intro s line rest quiet idle polls unread held
  rw [step_of_lineFeed ⟨quiet, idle, polls⟩ unread held]
  exact ⟨fun i (decoded : decodeLine line = .instr i) => by rw [processLine, decoded],
    fun (decoded : decodeLine line = .empty) => by rw [processLine, decoded]⟩

end Sys2Proof.Machine
end

section
/-! SUPPORT. What runs when: the port of an idle block, a placed table word, and a machine that is busy (30_encoding R47,
R48, 42_wire_commands R85). -/

namespace Sys2Proof.Machine

/-! ### The port -/

theorem secondPresenter_of_absent {s : State} (absent : s.fe = .absent) : secondPresenter s = false := by
  simp [secondPresenter, absent]

/-- Settles O47: an idle block without front end takes the request at the head of the port. -/
theorem portStepRunsDecodedRequest : Obligations.PortStepRunsDecodedRequest := by
  intro s r rest noReset idle absent presented
  rw [step_of_idle ⟨noReset, secondPresenter_of_absent absent⟩ idle]
  simp only [idleStep, absent, acceptRequest, presented]

/-! ### A placed table word -/

theorem decode_of_decodeTableWord {nbits w : Nat} {i : Instr} (h : decodeTableWord nbits w = some i) :
    decode (tablePresented nbits w) = .instr i := by
  unfold decodeTableWord at h
  split at h
  · next decoded => rw [decoded, Option.some.inj h]
  · cases h
  · cases h

/-- A table word that is a line fits the line buffer. -/
theorem tablePresented_length {nbits w : Nat} {line : List Byte} (h : tablePresented nbits w = .line line) :
    line.length ≤ Config.lineMax := by
  unfold tablePresented at h
  split at h
  · cases h
  · obtain rfl := Presented.line.inj h
    exact List.length_take_le _ _

/-- An instruction is encoded as a line or as a port request, as its row says (30_encoding R66). -/
theorem encode_form (i : Instr) : if i.isLine then ∃ line, encode i = .line line else ∃ r, encode i = .port r := by
  cases i <;> exact ⟨_, rfl⟩

theorem encode_of_port {i : Instr} (h : i.isLine = false) : ∃ r, encode i = .port r := by
  simpa [h] using encode_form i

theorem encode_of_line {i : Instr} (h : i.isLine = true) : ∃ line, encode i = .line line := by
  simpa [h] using encode_form i

theorem pollingOf_frame (s : State) : pollingOf s = { s with fe := .polling, trace := (pollingOf s).trace } := by
  cases h : s.fe with
  | absent => simp only [pollingOf, h]
  | booting => simp only [pollingOf, h]; rfl
  | polling => simp only [pollingOf, h]; rw [← h]
  | awaiting m f => simp only [pollingOf, h]

/-- What the placing of a line leaves as it was (log 1). -/
theorem placeLine_frame (line : List Byte) (s : State) :
    placeLine line s = { s with
      busy := false, remain := 0, hold := 0, rst := false, fe := .polling, cmds := [], rx := byteLf :: s.rx
      lbuf := (placeLine line s).lbuf, llen := (placeLine line s).llen, trace := (placeLine line s).trace } := by
  have placed : placeLine line s = (fun t : State => { t with rx := byteLf :: t.rx })
      (storeBytes line { pollingOf (quiet s) with llen := 0, cmds := [] }) := rfl
  rw [placed, storeBytes_frame, pollingOf_frame]
  rfl

/-- The placed line is in the buffer (log 1). -/
theorem bufferedLine_placeLine {line : List Byte} {s : State} (wf : Memory.wf s.lbuf)
    (fits : line.length ≤ Config.lineMax) : bufferedLine (placeLine line s) = some line := by
  have empty : LineHeld { pollingOf (quiet s) with llen := 0, cmds := [] } [] :=
    lineHeld_nil (by rw [pollingOf_frame]; exact wf) rfl
  obtain ⟨-, held⟩ := empty.storeBytes line
  rw [List.nil_append, List.take_of_length_le fits] at held
  exact held

/-- The step after the placing of a line processes it (log 1). -/
theorem step_placeLine {line : List Byte} {s : State} (wf : Memory.wf s.lbuf) (fits : line.length ≤ Config.lineMax) :
    step (placeLine line s) = processLine line { placeLine line s with rx := s.rx, llen := 0 } := by
  have polls : Polls (placeLine line s) := by rw [placeLine_frame]; exact ⟨⟨rfl, rfl⟩, rfl, rfl⟩
  exact step_of_lineFeed polls (by rw [placeLine_frame]) (bufferedLine_placeLine wf fits)

/-- Settles O49: by the two forms in which a table word is presented. -/
theorem fetchedTableWordIsRun : Obligations.FetchedTableWordIsRun := by
  intro s nbits w i decoded wf
  have decoded := decode_of_decodeTableWord decoded
  cases presented : tablePresented nbits w with
  | port r =>
    rw [presented] at decoded
    obtain rfl : decodeRequest r = i := Decoded.instr.inj decoded
    obtain ⟨request, encoded⟩ := encode_of_port (decodeRequest_isLine r)
    refine ⟨{ quiet s with fe := .absent }, ?_, rfl, by rw [encoded], rfl, rfl, rfl, rfl, rfl⟩
    rw [State.withFetchWord, presented]
    exact portStepRunsDecodedRequest (placeRequest r s) r s.cmds rfl rfl rfl rfl
  | line line =>
    rw [presented] at decoded
    have decoded : decodeLine line = .instr i := decoded
    obtain ⟨bytes, encoded⟩ := encode_of_line (decodeLine_isLine decoded)
    refine ⟨{ placeLine line s with rx := s.rx, llen := 0 }, ?_, ?_⟩
    · rw [State.withFetchWord, presented, place, step_placeLine wf (tablePresented_length presented), processLine, decoded]
    · rw [encoded, placeLine_frame]
      exact ⟨rfl, rfl, rfl, rfl, rfl, rfl, rfl⟩

/-! ### While `BUSY` is set -/

/-- Settles O17: a port operation asks whether the port is ready, a wire command whether the front end listens. -/
theorem everyOperationWaitsWhileBusy : Obligations.EveryOperationWaitsWhileBusy := by
  intro i s busy
  have notReady : ¬ cmdReady s = true := by simp [cmdReady, busy]
  have deaf : ¬ listening s = true := by simp [listening, cmdReady, busy]
  cases i with
  | stepcnt => exact if_neg notReady
  | setdelay => exact if_neg notReady
  | steprev => exact if_neg notReady
  | healthcheck => exact if_neg deaf
  | ping => exact if_neg deaf
  | step => exact if_neg deaf
  | speed => exact if_neg deaf
  | unknown => exact if_neg deaf

/-- What a step of a run does: `EXPIRE` at the end of a hold, `TICK` during it (40_stepping R70, R72). -/
def runEvent (s : State) : State := if s.hold = 0 then expire s else tick s

theorem step_eq_runEvent {s : State} (quiet : undisturbed s) (busy : s.busy = true) : step s = .next (runEvent s) := by
  rw [step_of_busy quiet busy, runEvent]
  split <;> rfl

/-- The events of a run neither read nor write the unread bytes (42_wire_commands R85). -/
theorem runEvent_rx (s : State) (bytes : List Byte) :
    runEvent { s with rx := bytes } = { runEvent s with rx := bytes } := by
  unfold runEvent expire
  split
  · split <;> rfl
  · rfl

/-- The events of a run neither read nor write the presented requests (30_encoding R48). -/
theorem runEvent_cmds (s : State) (requests : List Request) :
    runEvent { s with cmds := requests } = { runEvent s with cmds := requests } := by
  unfold runEvent expire
  split
  · split <;> rfl
  · rfl

/-- Settles O27: the step of a run is its event, which reads and writes no input. -/
theorem runIgnoresHostInput : Obligations.RunIgnoresHostInput := by
  intro s bytes requests quiet busy
  refine ⟨runEvent s, step_eq_runEvent quiet busy, ?_, fun absent => ?_⟩
  · rw [step_eq_runEvent (s := { s with rx := bytes }) quiet busy]
    exact congrArg _ (runEvent_rx s bytes)
  · rw [step_eq_runEvent (s := { s with cmds := requests }) ⟨quiet.1, secondPresenter_of_absent absent⟩ busy]
    exact congrArg _ (runEvent_cmds s requests)

end Sys2Proof.Machine
end

section
/-! SUPPORT. The tokens of an argument string and the three classes of a numeric token (30_encoding R62 to R64). -/

namespace Sys2Proof.Machine

/-! ### Tokens -/

/-- Bytes outside `WS` join the token in progress. -/
theorem tokensFrom_token {t : List Byte} (h : t.all (fun b => !isWs b) = true) (rest cur : List Byte) :
    tokensFrom (t ++ rest) cur = tokensFrom rest (t.reverse ++ cur) := by
  induction t generalizing cur with
  | nil => rfl
  | cons b t ih =>
    simp only [List.all_cons, Bool.and_eq_true, Bool.not_eq_true'] at h
    obtain ⟨notWs, h⟩ := h
    simp [tokensFrom, notWs, ih h]

/-- `WS` bytes between tokens do not matter. -/
theorem tokensFrom_ws {pre : List Byte} (h : pre.all isWs = true) (rest : List Byte) :
    tokensFrom (pre ++ rest) [] = tokensFrom rest [] := by
  induction pre with
  | nil => rfl
  | cons b pre ih =>
    simp only [List.all_cons, Bool.and_eq_true] at h
    obtain ⟨ws, h⟩ := h
    simp [tokensFrom, ws, ih h]

/-- A token in progress ends at the end of the string. -/
theorem tokensFrom_end {cur : List Byte} (h : cur ≠ []) : tokensFrom [] cur = [cur.reverse] := if_neg h

/-- A token in progress ends at a `WS` byte. -/
theorem tokensFrom_ws_ends {cur : List Byte} (h : cur ≠ []) {w : Byte} (ws : isWs w = true) (rest : List Byte) :
    tokensFrom (w :: rest) cur = cur.reverse :: tokensFrom rest [] := by
  simp [tokensFrom, ws, h]

/-- Not empty and without `WS` bytes. -/
def IsToken (t : List Byte) : Prop := t ≠ [] ∧ t.all (fun b => !isWs b) = true

theorem IsToken.reverse {t : List Byte} (h : IsToken t) : IsToken t.reverse :=
  ⟨mt List.reverse_eq_nil_iff.mp h.1, List.all_reverse.trans h.2⟩

/-- What is found is a token, if what is in progress is one or nothing. -/
theorem isToken_of_mem_tokensFrom {args cur t : List Byte} (h : t ∈ tokensFrom args cur) (hcur : cur = [] ∨ IsToken cur) :
    IsToken t := by
  induction args generalizing cur with
  | nil =>
    rcases hcur with rfl | token
    · cases h
    · rw [tokensFrom_end token.1, List.mem_singleton] at h
      exact h ▸ token.reverse
  | cons b args ih =>
    by_cases ws : isWs b = true
    · rcases hcur with rfl | token
      · rw [← List.singleton_append, tokensFrom_ws (by simp [ws])] at h
        exact ih h (.inl rfl)
      · rw [tokensFrom_ws_ends token.1 ws, List.mem_cons] at h
        rcases h with rfl | h
        · exact token.reverse
        · exact ih h (.inl rfl)
    · have notWs : ([b] : List Byte).all (fun b => !isWs b) = true := by simp [ws]
      rw [← List.singleton_append, tokensFrom_token notWs] at h
      refine ih h (.inr ⟨by simp, ?_⟩)
      rcases hcur with rfl | ⟨-, token⟩
      · exact notWs
      · rw [List.reverse_singleton, List.all_append, notWs, token]
        rfl

/-- Settles O39: the bytes of a token join it one by one, and the end or a `WS` byte ends it. -/
theorem tokensAreMaximalRuns : Obligations.TokensAreMaximalRuns := by
  refine ⟨rfl, fun _ _ h => isToken_of_mem_tokensFrom h (.inl rfl), fun _ h args => tokensFrom_ws h args,
    fun t notNil notWs => ?_⟩
  have inProgress : t.reverse ++ [] ≠ [] := by simpa using notNil
  refine ⟨?_, fun w args ws => ?_⟩
  · have alone := tokensFrom_token notWs [] []
    rw [List.append_nil, tokensFrom_end inProgress] at alone
    simpa [tokens] using alone
  · rw [tokens, tokensFrom_token notWs, tokensFrom_ws_ends inProgress ws]
    simp [tokens]

/-! ### The sign of a number -/

/-- An optional sign (30_encoding R63). -/
def IsSign (sign : List Byte) : Prop := sign = [] ∨ sign = [0x2B] ∨ sign = [0x2D]

/-- The number a sign stands for. -/
def signValue (sign : List Byte) : Int := if sign = [0x2D] then -1 else 1

theorem unsigned_cons {b : Byte} (h : b ≠ 0x2B ∧ b ≠ 0x2D) (bs : List Byte) : unsigned (b :: bs) = b :: bs := by
  have noSign : (b == 0x2B || b == 0x2D) = false := by rw [beq_false_of_ne h.1, beq_false_of_ne h.2]; rfl
  rw [unsigned, noSign]
  rfl

theorem digit_ne_sign {b : Byte} (h : isDigit b = true) : b ≠ 0x2B ∧ b ≠ 0x2D := by
  revert b; decide

/-- A token that begins with a digit has no sign. -/
theorem unsigned_digits {ds rest : List Byte} (h : ds.all isDigit = true) (hrest : ds = [] → unsigned rest = rest) :
    unsigned (ds ++ rest) = ds ++ rest := by
  cases ds with
  | nil => exact hrest rfl
  | cons d ds => exact unsigned_cons (digit_ne_sign (List.all_eq_true.mp h d (by simp))) _

/-- A sign in front is taken off. -/
theorem unsigned_sign_append {sign t : List Byte} (hsign : IsSign sign) (ht : sign = [] → unsigned t = t) :
    unsigned (sign ++ t) = t := by
  rcases hsign with rfl | rfl | rfl
  · exact ht rfl
  · rfl
  · rfl

theorem isNegative_of_unsigned {t : List Byte} (h : unsigned t = t) : isNegative t = false := by
  cases t with
  | nil => rfl
  | cons b bs =>
    by_contra negative
    have minus : b = 0x2D := by simpa [isNegative] using negative
    simp [unsigned, minus] at h

/-- The sign in front gives a magnitude its sign. -/
theorem signed_sign_append {sign t : List Byte} (hsign : IsSign sign) (ht : sign = [] → unsigned t = t) (n : Nat) :
    signed (sign ++ t) n = signValue sign * n := by
  rcases hsign with rfl | rfl | rfl
  · simp [signed, signValue, isNegative_of_unsigned (ht rfl)]
  · simp [signed, signValue, isNegative]
  · simp [signed, signValue, isNegative]

/-! ### Digits -/

theorem digitsOf_append {ds : List Byte} (h : ds.all isDigit = true) (rest : List Byte) :
    digitsOf (ds ++ rest) = ds ++ digitsOf rest :=
  List.takeWhile_append_of_pos (List.all_eq_true.mp h)

theorem afterDigits_append {ds : List Byte} (h : ds.all isDigit = true) (rest : List Byte) :
    afterDigits (ds ++ rest) = afterDigits rest :=
  dropWhile_append_of_all h

theorem digitsOf_cons {b : Byte} (h : isDigit b = false) (bs : List Byte) : digitsOf (b :: bs) = [] := by
  simp [digitsOf, h]

/-- A text without a digit in front is what follows its digits. -/
theorem afterDigits_of_none {t : List Byte} (h : digitsOf t = []) : afterDigits t = t := by
  have split : digitsOf t ++ afterDigits t = t := List.takeWhile_append_dropWhile
  rwa [h] at split

/-- Digits, and a rest that does not begin with one, are taken apart again. -/
theorem digits_split {ds rest : List Byte} (h : ds.all isDigit = true) (hrest : digitsOf rest = []) :
    digitsOf (ds ++ rest) = ds ∧ afterDigits (ds ++ rest) = rest := by
  rw [digitsOf_append h, hrest, List.append_nil, afterDigits_append h, afterDigits_of_none hrest]
  exact ⟨rfl, rfl⟩

theorem foldl_digits (n : Nat) (ds : List Byte) :
    ds.foldl (fun n d => 10 * n + (d.toNat - 0x30)) n = n * 10 ^ ds.length + digitsValue ds := by
  induction ds generalizing n with
  | nil => simp [digitsValue]
  | cons d ds ih =>
    rw [digitsValue, List.foldl_cons, List.foldl_cons, ih, ih (10 * 0 + (d.toNat - 0x30)), List.length_cons, pow_succ]
    ring

/-- Digits before others count 10 times as much for each of these. -/
theorem digitsValue_append (ds es : List Byte) :
    digitsValue (ds ++ es) = digitsValue ds * 10 ^ es.length + digitsValue es := by
  rw [digitsValue, List.foldl_append, foldl_digits]
  rfl

/-- The rational that a sign, whole digits and fraction digits spell (30_encoding R63). -/
theorem decimal_sign_append {sign t : List Byte} (hsign : IsSign sign) (ht : sign = [] → unsigned t = t)
    (whole frac : List Byte) :
    decimal (sign ++ t) whole frac =
      (if sign = [0x2D] then -1 else 1) * (digitsValue whole + digitsValue frac / 10 ^ frac.length : Rat) := by
  rw [decimal, Rat.mkRat_eq_div, signed_sign_append hsign ht, digitsValue_append, signValue]
  push_cast
  field_simp

/-! ### What the parsers find -/

/-- An integer token in full (30_encoding R64). -/
theorem parseInt_full {t ds : List Byte} (ht : unsigned t = ds) (hds : ds ≠ []) (h : ds.all isDigit = true) :
    parseInt t = inRange (signed t (digitsValue ds)) := by
  obtain ⟨digits, after⟩ := digits_split (rest := []) h rfl
  rw [List.append_nil] at digits after
  obtain ⟨d, ds, rfl⟩ := List.exists_cons_of_ne_nil hds
  simp only [parseInt, ht, digits, after]

/-- An integer with trailing matter (30_encoding R64, U2). -/
theorem parseInt_trailing {t ds more : List Byte} {b : Byte} (ht : unsigned t = ds ++ b :: more) (hds : ds ≠ [])
    (h : ds.all isDigit = true) (hb : isDigit b = false) : parseInt t = .refused .greyNumber := by
  obtain ⟨digits, after⟩ := digits_split h (digitsOf_cons hb more)
  obtain ⟨d, ds, rfl⟩ := List.exists_cons_of_ne_nil hds
  simp only [parseInt, ht, digits, after]

/-- No digit after the sign: no integer in front (30_encoding R64). -/
theorem parseInt_noPrefix {t : List Byte} (h : digitsOf (unsigned t) = []) : parseInt t = noPrefix t := by
  simp only [parseInt, h]

/-- Whole digits alone (30_encoding R63). -/
theorem parseReal_whole {t ds : List Byte} (ht : unsigned t = ds) (hds : ds ≠ []) (h : ds.all isDigit = true) :
    parseReal t = .value (decimal t ds []) := by
  obtain ⟨digits, after⟩ := digits_split (rest := []) h rfl
  rw [List.append_nil] at digits after
  obtain ⟨d, ds, rfl⟩ := List.exists_cons_of_ne_nil hds
  simp only [parseReal, ht, digits, after]

/-- A point with digits before or after it, and what follows the number (30_encoding R63). -/
theorem parseReal_point {t ds frac rest : List Byte} (ht : unsigned t = ds ++ 0x2E :: (frac ++ rest))
    (some_digit : ds ≠ [] ∨ frac ≠ []) (h : ds.all isDigit = true) (hfrac : frac.all isDigit = true)
    (hrest : digitsOf rest = []) : parseReal t = fullOnly rest (decimal t ds frac) := by
  obtain ⟨digits, after⟩ := digits_split h (digitsOf_cons (b := 0x2E) (by decide) (frac ++ rest))
  obtain ⟨fracDigits, fracAfter⟩ := digits_split hfrac hrest
  cases ds with
  | nil =>
    have frac_ne : frac ≠ [] := some_digit.resolve_left (· rfl)
    simp only [parseReal, ht, digits, after, fracDigits, fracAfter, ne_eq, frac_ne, not_false_eq_true, and_self, if_true]
  | cons d ds => simp only [parseReal, ht, digits, after, fracDigits, fracAfter, if_true]

/-- Whole digits with trailing matter that is no point (30_encoding R63, U2). -/
theorem parseReal_trailing {t ds more : List Byte} {b : Byte} (ht : unsigned t = ds ++ b :: more) (hds : ds ≠ [])
    (h : ds.all isDigit = true) (hb : isDigit b = false) (noPoint : b ≠ 0x2E) : parseReal t = .refused .greyNumber := by
  obtain ⟨digits, after⟩ := digits_split h (digitsOf_cons hb more)
  obtain ⟨d, ds, rfl⟩ := List.exists_cons_of_ne_nil hds
  simp only [parseReal, ht, digits, after, noPoint, if_false]

/-- No digit after the sign, and none after a point there: no number in front (30_encoding R63). -/
theorem parseReal_noPrefix {t : List Byte} (h : digitsOf (unsigned t) = [])
    (noPoint : ∀ more, unsigned t = 0x2E :: more → digitsOf more = []) : parseReal t = noPrefix t := by
  have after := afterDigits_of_none h
  cases ht : unsigned t with
  | nil => rw [ht] at h after; simp only [parseReal, ht, h, after]
  | cons b more =>
    have not_real : ¬ (b = 0x2E ∧ digitsOf more ≠ []) := fun ⟨point, digits⟩ => digits (noPoint more (point ▸ ht))
    rw [ht] at h after
    simp only [parseReal, ht, h, after, not_real, if_false]

/-! ### The values of numeric tokens -/

/-- Settles O40: the two forms of a real token, with and without a point. -/
theorem realTokenHasItsValue : Obligations.RealTokenHasItsValue := by
  intro sign whole frac hsign hwhole hfrac
  have sign_whole : sign = [] → unsigned whole = whole := fun _ => by
    simpa using unsigned_digits (rest := []) hwhole fun _ => rfl
  have sign_point : sign = [] → unsigned (whole ++ 0x2E :: frac) = whole ++ 0x2E :: frac := fun _ =>
    unsigned_digits hwhole fun _ => unsigned_cons (by decide) frac
  refine ⟨fun some_digit => ?_, fun some_digit => ?_⟩
  · rw [parseReal_whole (unsigned_sign_append hsign sign_whole) some_digit hwhole, decimal_sign_append hsign sign_whole]
    simp [digitsValue]
  · rw [List.append_assoc,
      parseReal_point (rest := []) (by rw [unsigned_sign_append hsign sign_point, List.append_nil]) some_digit hwhole
        hfrac rfl,
      decimal_sign_append hsign sign_point]
    rfl

/-- Settles O41: an integer token has the value of its digits with its sign, and the bounds are those of 32 bits. -/
theorem intTokenHasItsValue : Obligations.IntTokenHasItsValue := by
  intro sign digits hsign some_digit hdigits
  have sign_digits : sign = [] → unsigned digits = digits := fun _ => by
    simpa using unsigned_digits (rest := []) hdigits fun _ => rfl
  rw [parseInt_full (unsigned_sign_append hsign sign_digits) some_digit hdigits, signed_sign_append hsign sign_digits]
  rfl

/-! ### The grey zone and the failures -/

/-- The names that are refused, in capitals (30_encoding R63). -/
def IsSpecialName (t : List Byte) : Prop :=
  upper t = ascii ['I', 'N', 'F'] ∨ upper t = ascii ['N', 'A', 'N'] ∨
    upper t = ascii ['I', 'N', 'F', 'I', 'N', 'I', 'T', 'Y']

/-- A byte whose capital is `I` or `N` is no sign, no point and no digit. -/
theorem letter_of_upperByte {b : Byte} (h : upperByte b = 0x49 ∨ upperByte b = 0x4E) :
    (b ≠ 0x2B ∧ b ≠ 0x2D) ∧ b ≠ 0x2E ∧ isDigit b = false := by
  revert b; decide

theorem IsSpecialName.head {t : List Byte} (h : IsSpecialName t) :
    ∃ b more, t = b :: more ∧ (b ≠ 0x2B ∧ b ≠ 0x2D) ∧ b ≠ 0x2E ∧ isDigit b = false := by
  cases t with
  | nil => revert h; simp [IsSpecialName, upper, ascii]
  | cons b more =>
    refine ⟨b, more, rfl, letter_of_upperByte ?_⟩
    rcases h with h | h | h
    · exact .inl (List.cons.inj h).1
    · exact .inr (List.cons.inj h).1
    · exact .inl (List.cons.inj h).1

/-- A name with an optional sign is refused (30_encoding R63, U2). -/
theorem noPrefix_special {α : Type} {sign t : List Byte} (hsign : IsSign sign) (ht : sign = [] → unsigned t = t)
    (h : IsSpecialName t) : (noPrefix (sign ++ t) : Parsed α) = .refused .greyNumber := by
  have special : isSpecial (sign ++ t) = true := by
    rw [isSpecial, unsigned_sign_append hsign ht]
    rcases h with h | h | h <;> rw [h] <;> decide
  exact if_pos special

theorem noPrefix_failure {α : Type} {t : List Byte} (h : isSpecial t = false) : (noPrefix t : Parsed α) = .failure :=
  if_neg (by simp [h])

/-- Without a digit in front there is no number in front, unless a point with a digit follows. -/
theorem parse_noDigit {sign more : List Byte} {b : Byte} (hsign : IsSign sign)
    (hb : sign = [] → b ≠ 0x2B ∧ b ≠ 0x2D) (noDigit : isDigit b = false) :
    parseInt (sign ++ b :: more) = noPrefix (sign ++ b :: more) ∧
    (b ≠ 0x2E ∨ digitsOf more = [] → parseReal (sign ++ b :: more) = noPrefix (sign ++ b :: more)) := by
  have ht : unsigned (sign ++ b :: more) = b :: more :=
    unsigned_sign_append hsign fun empty => unsigned_cons (hb empty) more
  have none : digitsOf (unsigned (sign ++ b :: more)) = [] := by rw [ht, digitsOf_cons noDigit]
  refine ⟨parseInt_noPrefix none, fun noPoint => parseReal_noPrefix none fun rest hrest => ?_⟩
  rw [ht] at hrest
  obtain ⟨point, rfl⟩ := List.cons.inj hrest
  exact noPoint.resolve_left (absurd point)

/-- A lone sign and the empty token are no numbers. -/
theorem parse_sign {sign : List Byte} (hsign : IsSign sign) : parseInt sign = .failure ∧ parseReal sign = .failure := by
  rcases hsign with rfl | rfl | rfl
  · decide
  · decide
  · decide

/-- Settles O42, clause by clause: trailing matter, the special names, and tokens without a number in front. -/
theorem greyNumbersAndFailures : Obligations.GreyNumbersAndFailures := by
  intro sign digits b more hsign hdigits noDigit
  have unsigned_eq : ∀ rest, (digits = [] → unsigned rest = rest) → unsigned (sign ++ digits ++ rest) = digits ++ rest :=
    fun rest hrest => by
      rw [List.append_assoc]
      exact unsigned_sign_append hsign fun _ => unsigned_digits hdigits hrest
  refine ⟨fun some_digit => ?_, fun some_digit noPoint => ?_, fun frac some_digit hfrac => ?_, fun t special => ?_,
    fun noSign notSpecial => ?_, parse_sign hsign⟩
  · exact parseInt_trailing (unsigned_eq _ (absurd · some_digit)) some_digit hdigits noDigit
  · exact parseReal_trailing (unsigned_eq _ (absurd · some_digit)) some_digit hdigits noDigit noPoint
  · rw [parseReal_point (unsigned_eq _ fun _ => unsigned_cons (by decide) _) some_digit hdigits hfrac
      (digitsOf_cons noDigit more)]
    rfl
  · obtain ⟨c, name, rfl, letter, noPoint, notDigit⟩ := IsSpecialName.head special
    obtain ⟨int, real⟩ := parse_noDigit (more := name) hsign (fun _ => letter) notDigit
    have refused {α : Type} : (noPrefix (sign ++ c :: name) : Parsed α) = .refused .greyNumber :=
      noPrefix_special hsign (fun _ => unsigned_cons letter name) special
    exact ⟨(real (.inl noPoint)).trans refused, int.trans refused⟩
  · obtain ⟨int, real⟩ := parse_noDigit (more := more) hsign noSign noDigit
    exact ⟨int.trans (noPrefix_failure notSpecial), fun h => (real h).trans (noPrefix_failure notSpecial)⟩

end Sys2Proof.Machine
end

section
/-! SUPPORT. The inputs the spec marks `refuse`, and the texts of the responses (30_encoding R60 to R65, 42_wire_commands
R81, R82, 40_stepping R75, R76). -/

namespace Sys2Proof.Machine

/-! ### The total of a `STEPREV` -/

/-- Rounding half up, exact: the quotient of the model is the floor of the rational (40_stepping R75). -/
theorem totalSteps_eq_floor (spr : Nat) (revs : Rat) : totalSteps spr revs = ⌊revs * spr + 1 / 2⌋ := by
  have den_ne : (revs.den : Rat) ≠ 0 := Nat.cast_ne_zero.mpr revs.den_nz
  have quotient : revs * spr + 1 / 2 = ((2 * revs.num * spr + revs.den : Int) : Rat) / ((2 * revs.den : Nat) : Rat) := by
    conv_lhs => rw [← Rat.num_div_den revs]
    push_cast
    field_simp
  rw [quotient, Rat.floor_intCast_div_natCast, totalSteps]
  push_cast
  rfl

/-- A total above the largest operand is refused (40_stepping R76, U5). -/
theorem expandTotal_refused {total : Int} (h : total > Config.maxCount) (d : Dir) : expandTotal total d = .refused := by
  have positive : ¬ total ≤ 0 := by simp only [Config.maxCount] at h; omega
  rw [expandTotal, if_neg positive, if_pos h]

/-- A positive count is expanded by its rounded total in its own direction (40_stepping R76). -/
theorem expandRev_of_pos {revs : Rat} (h : 0 < revs) (spr : Nat) (d : Dir) :
    expandRev spr revs d = expandTotal ⌊revs * spr + 1 / 2⌋ d := by
  rw [expandRev, if_neg h.ne', if_neg h.not_gt, totalSteps_eq_floor]

/-- A count whose rounded total is above 0 is positive. -/
theorem revs_pos_of_floor_pos {revs : Rat} {spr : Nat} (h : 0 < ⌊revs * spr + 1 / 2⌋) : 0 < revs := by
  by_contra nonpos
  have below : revs * spr ≤ 0 := mul_nonpos_of_nonpos_of_nonneg (not_lt.mp nonpos) (Nat.cast_nonneg spr)
  have above : (1 : Rat) ≤ revs * spr + 1 / 2 := by exact_mod_cast Int.le_floor.mp h
  linarith

/-! ### The wire commands of a listening front end -/

theorem exec_step {s : State} (polls : s.fe = .polling) (idle : s.busy = false) (args : List Byte) :
    exec (.step args) s = handleStep (checkStep args) s :=
  if_pos (listening_iff.mpr ⟨idle, polls⟩)

theorem exec_speed {s : State} (polls : s.fe = .polling) (idle : s.busy = false) (args : List Byte) :
    exec (.speed args) s = handleSpeed (checkSpeed args) s :=
  if_pos (listening_iff.mpr ⟨idle, polls⟩)

theorem checkStep_of_tokens {args t u : List Byte} (h : tokens args = [t, u]) :
    checkStep args = stepClasses (parseReal t) (parseInt u) := by
  rw [checkStep, h, checkStepTokens]

theorem checkSpeed_of_token {args t : List Byte} (h : tokens args = [t]) : checkSpeed args = speedClass (parseInt t) := by
  rw [checkSpeed, h, checkSpeedTokens]

/-- Two or more tokens of a `SPEED` are refused before any is looked at (42_wire_commands R82, U4). -/
theorem checkSpeed_of_tokens {args : List Byte} (h : 2 ≤ (tokens args).length) :
    checkSpeed args = .refused .speedExtraTokens := by
  rw [checkSpeed]
  match tokens args, h with
  | _ :: _ :: _, _ => rfl

/-- A refused flag refuses the `STEP`, if the magnitude is not refused first (42_wire_commands R81). -/
theorem stepClasses_flag_refused {m : Parsed Rat} (h : ∀ q, m ≠ .refused q) (r : Refusal) :
    stepClasses m (.refused r) = .refused r := by
  cases m with
  | value => rfl
  | refused q => exact absurd rfl (h q)
  | failure => rfl

/-- A line with a byte that is not text is refused (30_encoding R60, U3). -/
theorem processLine_notText {line : List Byte} (h : line.all isText = false) (s : State) :
    processLine line s = .refused .lineNotAscii := by
  have notAscii : decodeLine line = .notAscii := if_neg (by simp [h])
  rw [processLine, notAscii]

/-- Settles O38: each marked input by the check that finds it. -/
theorem markedInputsAreRefused : Obligations.MarkedInputsAreRefused := by
  intro s polls idle
  refine ⟨fun args t u r two real => ?_, fun args t u r two real int => ?_, fun args m f checked large => ?_,
    fun args t r one int => ?_, fun args many => ?_, fun line rest quiet unread held notText => ?_⟩
  · rw [exec_step polls idle, checkStep_of_tokens two, real]; rfl
  · rw [exec_step polls idle, checkStep_of_tokens two, int, stepClasses_flag_refused real]; rfl
  · have positive : 0 < m := revs_pos_of_floor_pos (lt_trans (by norm_num) large)
    rw [exec_step polls idle, checked, handleStep, expandRev_of_pos positive, expandTotal_refused large]; rfl
  · rw [exec_speed polls idle, checkSpeed_of_token one, int]; rfl
  · rw [exec_speed polls idle, checkSpeed_of_tokens many]; rfl
  · rw [step_of_lineFeed ⟨quiet, idle, polls⟩ unread held, processLine_notText notText]

/-! ### Responses -/

/-- The success indication is the longer one, whatever the open parameters (42_wire_commands R84, D23). -/
theorem failure_shorter_than_success : Indication.duration .failure < Indication.duration .success :=
  Nat.lt_succ_of_le (Nat.le_add_right _ _)

/-- Settles O43: the closed texts by evaluation, the status lines by their definition. -/
theorem responseTexts : Obligations.ResponseTexts :=
  ⟨by decide, by decide, by decide, by decide, by decide, fun _ _ => rfl, fun _ => rfl, fun _ => rfl,
    failure_shorter_than_success⟩

end Sys2Proof.Machine
end

section
/-! SUPPORT. The state machine during a run: the index after some transitions, the ticks of a hold, and the whole run
(40_stepping R67 to R74). -/

namespace Sys2Proof.Machine

/-! ### The next index -/

/-- One place up (40_stepping R67). -/
theorem nextIndex_forward_toNat (i : Index) : (nextIndex i .forward).toNat = (i.toNat + 1) % 8 :=
  BitVec.toNat_add i 1

/-- One place down, in signed arithmetic so that index 0 wraps (40_stepping R67). -/
theorem nextIndex_backward_toNat (i : Index) : ((nextIndex i .backward).toNat : Int) = (i.toNat - 1 + 8 : Int) % 8 := by
  have bound : i.toNat < 8 := i.isLt
  rw [nextIndex, BitVec.toNat_sub, show (1 : Index).toNat = 1 from rfl]
  omega

/-- Settles O11: the formulas of the two directions, and that a step which moves `PHASE` makes one transition. -/
theorem nextIndexFormula : Obligations.NextIndexFormula := by
  refine ⟨fun i => ⟨nextIndex_forward_toNat i, nextIndex_backward_toNat i⟩, fun s t noReset h => ?_⟩
  rcases step_pinsStay_or_pinsMove noReset h with ⟨stays, -⟩ | ⟨moves, -⟩
  · exact .inl stays
  · cases dir : t.dir with
    | forward => exact .inr (.inl (dir ▸ moves))
    | backward => exact .inr (.inr (dir ▸ moves))

/-- Whole circles of 8 places lead back to the index (40_stepping R74). -/
theorem indexAfter_circles (i : Index) (d : Dir) {k : Nat} (circles : 8 ∣ k) : indexAfter i d k = i := by
  have bound : i.toNat < 8 := i.isLt
  apply BitVec.eq_of_toNat_eq
  cases d with
  | forward => rw [indexAfter, BitVec.toNat_ofNat]; omega
  | backward => rw [indexAfter, BitVec.toNat_ofInt]; omega

/-- One transition more is one place further (40_stepping R73 (b)). -/
theorem nextIndex_indexAfter (i : Index) (d : Dir) (k : Nat) :
    nextIndex (indexAfter i d k) d = indexAfter i d (k + 1) := by
  apply BitVec.eq_of_toNat_eq
  cases d with
  | forward =>
    rw [nextIndex_forward_toNat, indexAfter, indexAfter, BitVec.toNat_ofNat, BitVec.toNat_ofNat]
    omega
  | backward =>
    have down := nextIndex_backward_toNat (indexAfter i .backward k)
    rw [indexAfter, BitVec.toNat_ofInt] at down
    rw [indexAfter, indexAfter, BitVec.toNat_ofInt]
    omega

/-- `indexAfter` counts the applications of `next` (40_stepping R67, R73 (b)). -/
theorem iterate_nextIndex (i : Index) (d : Dir) (k : Nat) : (fun j => nextIndex j d)^[k] i = indexAfter i d k := by
  induction k with
  | zero => exact (indexAfter_circles i d (dvd_zero 8)).symm
  | succ k ih => rw [Function.iterate_succ_apply', ih, nextIndex_indexAfter]

@[simp] theorem nextIndex_forward_backward (i : Index) : nextIndex (nextIndex i .forward) .backward = i :=
  BitVec.add_sub_cancel i 1

/-- Settles O12: eight applications are the index eight places on, and a subtraction undoes an addition. -/
theorem nextIndexIsCyclic : Obligations.NextIndexIsCyclic :=
  fun i => ⟨fun d => (iterate_nextIndex i d 8).trans (indexAfter_circles i d dvd_rfl), nextIndex_forward_backward i,
    nextIndex_backward_forward i⟩

/-! ### One step of a run -/

theorem step_of_hold {s : State} (quiet : undisturbed s) (busy : s.busy = true) (hold : s.hold ≠ 0) :
    step s = .next (tick s) := by
  rw [step_of_busy quiet busy, if_neg hold]

theorem step_of_expired {s : State} (quiet : undisturbed s) (busy : s.busy = true) (expired : s.hold = 0) :
    step s = .next (expire s) := by
  rw [step_of_busy quiet busy, if_pos expired]

/-- A hold that has expired is followed by the next transition if one is left (40_stepping R70). -/
theorem step_of_transition {s : State} (quiet : undisturbed s) (busy : s.busy = true) (expired : s.hold = 0)
    (left : s.remain ≠ 0) : step s = .next (adv s) := by
  rw [step_of_expired quiet busy expired, expire, if_neg left]

/-- A hold that has expired with no transition left is the end of the run (40_stepping R70). -/
theorem step_of_runEnd {s : State} (quiet : undisturbed s) (busy : s.busy = true) (expired : s.hold = 0)
    (done : s.remain = 0) : step s = .next { s with busy := false } := by
  rw [step_of_expired quiet busy expired, expire, if_pos done]

/-- Settles O13, by the two branches of `EXPIRE`. -/
theorem expiredHoldStepsOrEndsRun : Obligations.ExpiredHoldStepsOrEndsRun :=
  fun _ quiet busy expired => ⟨step_of_transition quiet busy expired, step_of_runEnd quiet busy expired⟩

theorem tick_of_hold {s : State} (hold : s.hold ≠ 0) : tick s = { s with hold := s.hold - 1, now := s.now + 1 } := by
  rw [tick, if_neg hold]

theorem tick_of_noHold {s : State} (hold : s.hold = 0) : tick s = { s with now := s.now + 1 } := by
  rw [tick, if_pos hold, ← hold]

/-- A machine at rest lets time pass (70 R123). -/
theorem step_of_rest {s : State} (rest : atRest s) : step s = .next (tick s) := by
  obtain ⟨idle, noRequest, noByte, noReset, fe⟩ := rest
  have quiet : undisturbed s := ⟨noReset, by simp [secondPresenter, noRequest]⟩
  rw [step_of_idle quiet idle]
  rcases fe with absent | polls
  · simp only [idleStep, absent, acceptRequest, noRequest]
  · simp only [idleStep, polls, poll, noByte]

/-- Settles O14: both steps are a `TICK`, and `HOLD` says which of its two branches it takes. -/
theorem tickCountsHoldDown : Obligations.TickCountsHoldDown := by
  refine fun s => ⟨fun quiet busy hold => ⟨?_, ?_⟩, fun rest noHold => ?_⟩
  · rw [step_of_hold quiet busy hold, tick_of_hold hold]
  · bv_omega
  · rw [step_of_rest rest, tick_of_noHold noHold]

/-! ### The ticks of a hold -/

/-- Counting down from a word, as a number: one less (40_stepping R68, R69). -/
theorem countdown_sub_one {w : Word32} {k : Nat} (h : k < w.toNat) :
    BitVec.ofNat 32 (w.toNat - k) - 1#32 = BitVec.ofNat 32 (w.toNat - (k + 1)) := by
  have bound := w.isLt
  bv_omega

theorem countdown_ne_zero {w : Word32} {k : Nat} (h : k < w.toNat) : BitVec.ofNat 32 (w.toNat - k) ≠ 0 := by
  have bound := w.isLt
  bv_omega

/-- The state `j` ticks further into a hold. -/
def ticked (s : State) (j : Nat) : State :=
  { s with hold := BitVec.ofNat 32 (s.hold.toNat - j), now := s.now + j }

@[simp] theorem ticked_zero (s : State) : ticked s 0 = s := by simp [ticked]

/-- During a hold only `HOLD` and the clock's count move (40_stepping R69, R73 (e)). -/
theorem run_hold {s : State} (quiet : undisturbed s) (busy : s.busy = true) {j : Nat} (h : j ≤ s.hold.toNat) :
    run j s = .next (ticked s j) := by
  induction j with
  | zero => simp
  | succ j ih =>
    have holds : (ticked s j).hold ≠ 0 := countdown_ne_zero h
    have ticks : tick (ticked s j) = ticked s (j + 1) := by
      rw [tick_of_hold holds, ticked, ticked, ← countdown_sub_one h]
      rfl
    rw [run_add (ih (Nat.le_of_succ_le h)), run_one, step_of_hold (s := ticked s j) quiet busy holds, ticks]

/-! ### The transitions of a run -/

/-- A run begins with the transition that its operand asks for (40_stepping R71). -/
theorem adv_of_operands (s : State) (n : Word32) (d : Dir) :
    adv { s with dir := d, remain := n, busy := true } = startedRun s n d := rfl

theorem cmdReady_of_idle {s : State} (idle : s.busy = false) : cmdReady s = true := by simp [cmdReady, idle]

theorem exec_stepcnt {s : State} (idle : s.busy = false) (n : Word32) (d : Dir) :
    exec (.stepcnt n d) s = .next (acceptStepcnt n d s) :=
  if_pos (cmdReady_of_idle idle)

theorem acceptStepcnt_of_nonpos {n : Word32} (h : n.toInt ≤ 0) (d : Dir) (s : State) : acceptStepcnt n d s = s :=
  if_pos h

theorem acceptStepcnt_of_pos {n : Word32} (h : 0 < n.toInt) (d : Dir) (s : State) :
    acceptStepcnt n d s = startedRun s n d :=
  if_neg (Int.not_le.mpr h)

/-- Settles O15, by the two branches of the acceptance. -/
theorem stepcntStartsRun : Obligations.StepcntStartsRun := by
  refine fun s n d idle => ⟨fun nonpos => ?_, fun pos => ?_⟩
  · rw [exec_stepcnt idle, acceptStepcnt_of_nonpos nonpos]
  · rw [exec_stepcnt idle, acceptStepcnt_of_pos pos]

/-- The writes of one transition more: the next one comes `k` holds after the first (40_stepping R73 (a)). -/
theorem writesFrom_succ (table : PhaseTable) (i : Index) (d : Dir) (t0 D k : Nat) :
    writesFrom table i d t0 D (k + 1) =
      writesFrom table i d t0 D k ++ [.pins (t0 + k * D) (memRead table (indexAfter i d (k + 1)))] := by
  simp [writesFrom, List.range_succ]

/-- The start of a run is the moment of its first transition (40_stepping R73). -/
theorem startedRun_eq_runningState (s : State) {n : Word32} (d : Dir) (h : 0 < n.toNat) :
    startedRun s n d = runningState s n d 1 0 := by
  have left : n - 1#32 = BitVec.ofNat 32 (n.toNat - 1) := by simpa using countdown_sub_one h
  have first : nextIndex s.phase d = indexAfter s.phase d 1 := by
    rw [← nextIndex_indexAfter, indexAfter_circles _ _ (dvd_zero 8)]
  simp [startedRun, runningState, writesFrom, left, first]

/-- The states of one hold of a run. -/
theorem ticked_runningState (s : State) (n : Word32) (d : Dir) (k j : Nat) :
    ticked (runningState s n d k 0) j = runningState s n d k j := by
  simp [ticked, runningState]

/-- At the end of a hold with transitions left the next one is made (40_stepping R70, R73 (a)). -/
theorem adv_runningState (s : State) {n : Word32} {k : Nat} (d : Dir) (h : k + 1 < n.toNat) :
    adv (runningState s n d (k + 1) s.delay.toNat) = runningState s n d (k + 2) 0 := by
  have time : s.now + k * s.delay.toNat + s.delay.toNat = s.now + (k + 1) * s.delay.toNat := by ring
  simp [adv, memWriteGpio, runningState, nextIndex_indexAfter, writesFrom_succ _ _ _ _ _ (k + 1), countdown_sub_one h,
    time]

/-- At the end of the last hold the run is over (40_stepping R70, R73 (c)). -/
theorem runningState_over (s : State) {n : Word32} (d : Dir) (h : 0 < n.toNat) :
    { runningState s n d n.toNat s.delay.toNat with busy := false } = finishedRun s n d := by
  have time : s.now + (n.toNat - 1) * s.delay.toNat + s.delay.toNat = s.now + n.toNat * s.delay.toNat := by
    rw [Nat.add_assoc, ← Nat.succ_mul, Nat.succ_eq_add_one, Nat.sub_add_cancel h]
  simp [runningState, finishedRun, time]

/-- One hold of a run, tick by tick (40_stepping R73 (e)). -/
theorem run_runningState {s : State} (quiet : undisturbed s) (n : Word32) (d : Dir) (k : Nat) {j : Nat}
    (h : j ≤ s.delay.toNat) : run j (runningState s n d k 0) = .next (runningState s n d k j) := by
  have hold : (runningState s n d k 0).hold = s.delay := by simp [runningState]
  rw [run_hold (s := runningState s n d k 0) quiet rfl (hold ▸ h), ticked_runningState]

/-- The hold after a transition has run out once `DELAY` ticks have passed. -/
theorem runningState_hold_expired (s : State) (n : Word32) (d : Dir) (k : Nat) :
    (runningState s n d k s.delay.toNat).hold = 0 := by
  simp [runningState]

/-- Each transition is one hold and one `EXPIRE` after the one before (40_stepping R73 (a), (b)). -/
theorem run_to_transition {s : State} (quiet : undisturbed s) {n : Word32} (d : Dir) {k : Nat} (h : k < n.toNat) :
    run (k * (s.delay.toNat + 1)) (startedRun s n d) = .next (runningState s n d (k + 1) 0) := by
  induction k with
  | zero => rw [Nat.zero_mul, run_zero, startedRun_eq_runningState s d h]
  | succ k ih =>
    have left : (runningState s n d (k + 1) s.delay.toNat).remain ≠ 0 := countdown_ne_zero h
    rw [Nat.succ_mul, run_add (ih (Nat.lt_of_succ_lt h)), run_add (run_runningState quiet n d (k + 1) le_rfl), run_one,
      step_of_transition (s := runningState s n d (k + 1) s.delay.toNat) quiet rfl (runningState_hold_expired s n d _)
        left,
      adv_runningState s d h]

/-- Any moment of a run, counted from its last transition (40_stepping R73). -/
theorem run_startedRun {s : State} (quiet : undisturbed s) {n : Word32} (d : Dir) {k j : Nat} (hk : k < n.toNat)
    (hj : j ≤ s.delay.toNat) :
    run (k * (s.delay.toNat + 1) + j) (startedRun s n d) = .next (runningState s n d (k + 1) j) := by
  rw [run_add (run_to_transition quiet d hk), run_runningState quiet n d (k + 1) hj]

/-- The end of a run: one hold for each transition, and one `EXPIRE` for each (40_stepping R73 (c)). -/
theorem run_to_finishedRun {s : State} (quiet : undisturbed s) {n : Word32} (d : Dir) (h : 0 < n.toNat) :
    run (n.toNat * (s.delay.toNat + 1)) (startedRun s n d) = .next (finishedRun s n d) := by
  have last : n.toNat - 1 + 1 = n.toNat := Nat.sub_add_cancel h
  have steps : n.toNat * (s.delay.toNat + 1) = (n.toNat - 1) * (s.delay.toNat + 1) + s.delay.toNat + 1 := by
    rw [Nat.add_assoc, ← Nat.succ_mul, Nat.succ_eq_add_one, last]
  have done : (runningState s n d n.toNat s.delay.toNat).remain = 0 := by simp [runningState]
  rw [steps, run_add (run_startedRun quiet d (Nat.sub_lt h one_pos) le_rfl), run_one, last,
    step_of_runEnd (s := runningState s n d n.toNat s.delay.toNat) quiet rfl (runningState_hold_expired s n d _) done,
    runningState_over s d h]

theorem toNat_pos_of_toInt_pos {n : Word32} (h : 0 < n.toInt) : 0 < n.toNat := by
  rw [BitVec.toInt_eq_toNat_cond] at h
  split at h <;> omega

/-- Settles O23: `STEPCNT` makes the first transition, and the run follows hold by hold. -/
theorem runMakesExactlyItsTransitions : Obligations.RunMakesExactlyItsTransitions := by
  intro s n d idle quiet pos
  refine ⟨startedRun s n d, (stepcntStartsRun s n d idle).2 pos, fun k j first last hold => ?_,
    run_to_finishedRun quiet d (toNat_pos_of_toInt_pos pos)⟩
  obtain ⟨k, rfl⟩ := Nat.exists_eq_add_of_le' first
  exact run_startedRun quiet d last hold

/-! ### The rest of a run, from any moment of it -/

/-- The end of the hold a run is in. -/
theorem run_to_expired {s : State} (quiet : undisturbed s) (busy : s.busy = true) :
    run s.hold.toNat s = .next { s with hold := 0, now := s.now + s.hold.toNat } := by
  rw [run_hold quiet busy le_rfl, ticked, Nat.sub_self]
  rfl

/-- Once a hold has expired, the transitions that are left are those of a run of that many (40_stepping R70, R73). -/
theorem run_of_expired {s : State} (quiet : undisturbed s) (busy : s.busy = true) (expired : s.hold = 0)
    (left : s.remain ≠ 0) (m : Nat) : run (m + 1) s = run m (startedRun s s.remain s.dir) := by
  have operands : { s with dir := s.dir, remain := s.remain, busy := true } = s := by rw [← busy]
  rw [run_succ m (step_of_transition quiet busy expired left), ← adv_of_operands, operands]

/-- The machine is idle, with `PHASE` moved by what `REMAIN` was, after `ticks` more ticks. -/
def RunOver (s t : State) (ticks : Nat) : Prop :=
  t.busy = false ∧ t.now = s.now + ticks ∧ t.phase = indexAfter s.phase s.dir s.remain.toNat ∧ t.remain = 0 ∧
    t.hold = 0 ∧ t.dir = s.dir ∧ t.delay = s.delay

/-- Once a hold has expired, the run ends after one hold for each transition left (40_stepping R73 (c)). -/
theorem expired_run_ends {s : State} (quiet : undisturbed s) (busy : s.busy = true) (expired : s.hold = 0) :
    ∃ t, run (s.remain.toNat * (s.delay.toNat + 1) + 1) s = .next t ∧
      RunOver s t (s.remain.toNat * s.delay.toNat) := by
  by_cases left : s.remain = 0
  · refine ⟨{ s with busy := false }, ?_, ?_⟩
    · have none : s.remain.toNat = 0 := by simp [left]
      rw [none, Nat.zero_mul, run_one, step_of_runEnd quiet busy expired left]
    · simp [RunOver, left, expired, indexAfter_circles]
  · refine ⟨finishedRun s s.remain s.dir, ?_, rfl, rfl, rfl, rfl, rfl, rfl, rfl⟩
    rw [run_of_expired quiet busy expired left]
    exact run_to_finishedRun quiet s.dir (Nat.pos_of_ne_zero fun none => left (BitVec.eq_of_toNat_eq none))

/-- Once a hold has expired, `BUSY` stays set for one hold and one `EXPIRE` for each transition left (40_stepping
R73 (d)). -/
theorem expired_run_busy {s : State} (quiet : undisturbed s) (busy : s.busy = true) (expired : s.hold = 0) {k : Nat}
    (h : k ≤ s.remain.toNat * (s.delay.toNat + 1)) : ∃ t, run k s = .next t ∧ t.busy = true := by
  cases k with
  | zero => exact ⟨s, rfl, busy⟩
  | succ m =>
    have left : s.remain ≠ 0 := by
      intro none
      simp [none] at h
    have transition : m / (s.delay.toNat + 1) < s.remain.toNat := Nat.div_lt_of_lt_mul (by rwa [Nat.mul_comm])
    have tick : m % (s.delay.toNat + 1) ≤ s.delay.toNat := Nat.le_of_lt_succ (Nat.mod_lt _ (Nat.succ_pos _))
    have moment := run_startedRun quiet s.dir transition tick
    rw [Nat.div_add_mod'] at moment
    exact ⟨_, (run_of_expired quiet busy expired left m).trans moment, rfl⟩

/-- Settles O24: the rest of the hold, and then the rest of the run. -/
theorem runEndsFromAnyMoment : Obligations.RunEndsFromAnyMoment := by
  intro s quiet busy
  have hold := run_to_expired quiet busy
  refine ⟨?_, fun k h => ?_⟩
  · obtain ⟨t, ends, idle, time, rest⟩ :=
      expired_run_ends (s := { s with hold := 0, now := s.now + s.hold.toNat }) quiet busy rfl
    exact ⟨t, by rw [Nat.add_assoc, run_add hold, ends], idle, time, rest⟩
  · rcases Nat.le_total k s.hold.toNat with within | beyond
    · exact ⟨ticked s k, run_hold quiet busy within, busy⟩
    · obtain ⟨m, rfl⟩ := Nat.exists_eq_add_of_le beyond
      rw [run_add hold]
      exact expired_run_busy (s := { s with hold := 0, now := s.now + s.hold.toNat }) quiet busy rfl
        (Nat.le_of_add_le_add_left h)

end Sys2Proof.Machine
end

section
/-! SUPPORT. The port operations: the total of a `STEPREV`, what it issues, and the frame of the three operations
(40_stepping R71, R75, R76, 41_control R77). -/

namespace Sys2Proof.Machine

/-! ### The expansion of a `STEPREV` -/

theorem exec_steprev {s : State} (idle : s.busy = false) (revs : Rat) (d : Dir) :
    exec (.steprev revs d) s = issueExpansion (expandRev s.cfg.spr revs d) s :=
  if_pos (cmdReady_of_idle idle)

/-- A negative count is expanded as its magnitude in the other direction (40_stepping R76). -/
theorem expandRev_of_neg {revs : Rat} (h : revs < 0) (spr : Nat) (d : Dir) :
    expandRev spr revs d = expandRev spr (-revs) d.flip := by
  rw [expandRev_of_pos (neg_pos.mpr h), expandRev, if_neg h.ne, if_pos h, totalSteps_eq_floor]

/-- A total of 0 or below issues nothing (40_stepping R76). -/
theorem expandTotal_nothing {total : Int} (h : total ≤ 0) (d : Dir) : expandTotal total d = .nothing := if_pos h

/-- A total that is a positive count of 32 bits is issued (40_stepping R76). -/
theorem expandTotal_stepcnt {n : Word32} (h : 0 < n.toInt) (d : Dir) : expandTotal n.toInt d = .stepcnt n d := by
  have fits : ¬ n.toInt > Config.maxCount := by
    have below := BitVec.toInt_lt (x := n)
    simp only [Config.maxCount]
    omega
  rw [expandTotal, if_neg (Int.not_le.mpr h), if_neg fits, BitVec.ofInt_toInt]

/-- Less than half a step either way issues nothing (40_stepping R76). -/
theorem expandRev_nothing {revs : Rat} {spr : Nat} (h : |revs| * spr < 1 / 2) (d : Dir) :
    expandRev spr revs d = .nothing := by
  have rounds_to_zero : ∀ {m : Rat}, m * spr < 1 / 2 → ⌊m * spr + 1 / 2⌋ ≤ 0 := fun below =>
    Int.lt_add_one_iff.mp (Int.floor_lt.mpr (by push_cast; linarith))
  rcases lt_trichotomy revs 0 with negative | rfl | positive
  · rw [abs_of_neg negative] at h
    rw [expandRev_of_neg negative, expandRev_of_pos (neg_pos.mpr negative), expandTotal_nothing (rounds_to_zero h)]
  · rw [expandRev, if_pos rfl]
  · rw [abs_of_pos positive] at h
    rw [expandRev_of_pos positive, expandTotal_nothing (rounds_to_zero h)]

/-- Settles O18: the quotient of the model is the floor of the rational. -/
theorem totalIsRoundHalfUp : Obligations.TotalIsRoundHalfUp := totalSteps_eq_floor

/-- Settles O19: what is below half a step expands to nothing. -/
theorem steprevBelowHalfStepDoesNothing : Obligations.SteprevBelowHalfStepDoesNothing := by
  intro s revs d idle below
  rw [exec_steprev idle, expandRev_nothing below, issueExpansion]

/-- Settles O20: the two expansions agree, and a busy sequencer lets both wait. -/
theorem steprevNegativeFlipsDirection : Obligations.SteprevNegativeFlipsDirection := by
  intro s revs d negative
  cases busy : s.busy with
  | false => rw [exec_steprev busy, exec_steprev busy, expandRev_of_neg negative]
  | true => rw [everyOperationWaitsWhileBusy _ s busy, everyOperationWaitsWhileBusy _ s busy]

/-- Settles O21: the expansion is the `STEPCNT` of the total, which starts its run. -/
theorem steprevIssuesStepcnt : Obligations.SteprevIssuesStepcnt := by
  intro s revs d n idle positive count total
  have issued : exec (.steprev revs d) s = exec (.stepcnt n d) s := by
    rw [exec_steprev idle, expandRev_of_pos positive, ← total, expandTotal_stepcnt count, issueExpansion,
      exec_stepcnt idle]
  exact ⟨issued, by rw [issued, exec_stepcnt idle, acceptStepcnt_of_pos count]⟩

/-- Settles O22: the expansion of a total above the largest operand is a refusal. -/
theorem steprevLargeTotalRefused : Obligations.SteprevLargeTotalRefused := by
  intro s revs d idle positive large
  rw [exec_steprev idle, expandRev_of_pos positive, expandTotal_refused large, issueExpansion]

/-! ### The frame of the port operations -/

theorem linesOf_append_pins (os : List Output) (time : Nat) (v : Row) :
    linesOf (os ++ [.pins time v]) = linesOf os := by
  induction os with
  | nil => rfl
  | cons o os ih => cases o <;> simp [linesOf, ih]

/-- An expansion leaves the state alone or starts a run, if it is not refused (40_stepping R76). -/
theorem issueExpansion_next {e : Expansion} {s t : State} (h : issueExpansion e s = .next t) :
    t = s ∨ ∃ n d, t = startedRun s n d := by
  cases e with
  | nothing => exact .inl (next_inj.mp h).symm
  | stepcnt n d =>
    obtain rfl := next_inj.mp h
    rcases acceptStepcnt_cases n d s with ⟨-, e⟩ | ⟨-, e⟩
    · exact .inl e
    · exact .inr ⟨n, d, e⟩
  | refused => cases h

/-- `STEPCNT` and `STEPREV` leave the state alone or start a run (40_stepping R71, R76). -/
theorem exec_stepping_next {s t : State} {n : Word32} {d : Dir} {revs : Rat}
    (h : exec (.stepcnt n d) s = .next t ∨ exec (.steprev revs d) s = .next t) :
    t = s ∨ ∃ n d, t = startedRun s n d := by
  cases busy : s.busy with
  | true =>
    rw [everyOperationWaitsWhileBusy _ s busy, everyOperationWaitsWhileBusy _ s busy, or_self] at h
    exact .inl (next_inj.mp h).symm
  | false =>
    rw [exec_stepcnt busy, exec_steprev busy] at h
    rcases h with h | h
    · exact issueExpansion_next (e := .stepcnt n d) h
    · exact issueExpansion_next h

theorem exec_setdelay {s : State} (idle : s.busy = false) (us : Word32) :
    exec (.setdelay us) s = .next (acceptSetdelay us s) :=
  if_pos (cmdReady_of_idle idle)

/-- `SETDELAY` writes `DELAY` and nothing else (41_control R77). -/
theorem exec_setdelay_frame {s t : State} {us : Word32} (h : exec (.setdelay us) s = .next t) :
    t = { s with delay := t.delay } := by
  by_cases busy : s.busy = true
  · rw [everyOperationWaitsWhileBusy _ s busy] at h
    obtain rfl := next_inj.mp h
    rfl
  · rw [exec_setdelay (Bool.eq_false_of_not_eq_true busy)] at h
    obtain rfl := next_inj.mp h
    rcases acceptSetdelay_cases us s with ⟨-, e⟩ | ⟨-, e⟩ <;> rw [e]

/-- Settles O45: nothing happens or a run starts, and the start of a run writes what it says. -/
theorem portOperationsFrame : Obligations.PortOperationsFrame := by
  refine ⟨fun s t n d revs h => ?_, fun s t us h => exec_setdelay_frame h⟩
  rcases exec_stepping_next h with rfl | ⟨n, d, rfl⟩
  · exact ⟨rfl, rfl, rfl, fun _ => rfl, rfl, rfl, rfl, rfl, rfl, rfl, rfl, rfl, .inl rfl⟩
  · obtain ⟨phase, gpio, pins⟩ := adv_pinsMove { s with dir := d, remain := n, busy := true }
    exact ⟨rfl, rfl, rfl, fun _ => rfl, rfl, rfl, rfl, rfl, rfl, rfl, rfl, linesOf_append_pins _ _ _,
      .inr ⟨rfl, phase, gpio, pins⟩⟩

end Sys2Proof.Machine
end

section
/-! SUPPORT. The invariant: what each operation keeps of it, and that every step keeps it (40_stepping R72, 10_state R17,
R18, R22, R26, 42_wire_commands R85). -/

namespace Sys2Proof.Machine

/-! ### What the invariant does not speak of -/

/-- The inputs and the record of outputs are free. -/
theorem Inv.inputs_outputs {s : State} (inv : Inv s) (bytes : List Byte) (requests : List Request)
    (os : List Output) : Inv { s with rx := bytes, cmds := requests, trace := os } := { inv with }

/-- A line may be discarded. -/
theorem Inv.emptyLine {s : State} (inv : Inv s) : Inv { s with llen := 0 } :=
  { inv with llen_le := Nat.zero_le _, awaiting_empty := fun _ _ _ => rfl }

/-- An idle front end may poll (42_wire_commands R85). -/
theorem Inv.polling {s : State} (inv : Inv s) (idle : s.busy = false) : Inv { s with fe := .polling } :=
  { inv with
    run_owner := fun busy => absurd busy (by simp [idle])
    awaiting_empty := fun _ _ waits => nomatch waits }

/-! ### What the operations keep -/

/-- A positive delay may be stored while no hold is in progress (10_state R17, 40_stepping R72). -/
theorem Inv.storeDelay {s : State} (inv : Inv s) (idle : s.busy = false) {us : Word32} (pos : 0 < us.toInt) :
    Inv { s with delay := us } := by
  obtain ⟨-, noHold⟩ := inv.idle_clear idle
  exact { inv with
    hold_le := by rw [noHold]; exact BitVec.le_def.mpr (Nat.zero_le _)
    delay_pos := pos }

/-- A byte is stored within the buffer (10_state R26). -/
theorem Inv.appendByte {s : State} (inv : Inv s) (polls : s.fe = .polling) (b : Byte) : Inv (appendByte b s) := by
  rcases appendByte_cases b s with ⟨room, e⟩ | ⟨-, e⟩
  · rw [e]
    exact { inv with
      llen_le := (llen_succ room).trans_le room
      lbuf_wf := Memory.wf_write b inv.lbuf_wf room
      awaiting_empty := fun _ _ waits => absurd (polls.symm.trans waits) nofun }
  · rwa [e]

/-- A tick shortens a hold or changes no register (40_stepping R69). -/
theorem Inv.tick {s : State} (inv : Inv s) : Inv (tick s) := by
  by_cases hold : s.hold = 0
  · rw [tick_of_noHold hold]
    exact { inv with }
  · rw [tick_of_hold hold]
    have hold_le := inv.hold_le
    exact { inv with
      idle_clear := fun idle => absurd (inv.idle_clear idle).2 hold
      hold_le := by bv_omega }

/-- The end of a run leaves `REMAIN` and `HOLD` 0 (40_stepping R70, R72). -/
theorem Inv.runEnds {s : State} (inv : Inv s) (busy : s.busy = true) (expired : s.hold = 0) (done : s.remain = 0) :
    Inv { s with busy := false } := by
  have stepped : ¬ (s.gpio = 0 ∧ s.phase = 0 ∧ s.busy = false) := by simp [busy]
  exact { inv with
    idle_clear := fun _ => ⟨done, expired⟩
    pins := .inl (inv.pins.resolve_right stepped)
    run_owner := nofun }

theorem sub_one_nonneg {n : Word32} (nonneg : 0 ≤ n.toInt) (left : n ≠ 0) : 0 ≤ (n - 1).toInt := by
  rw [BitVec.toInt_eq_toNat_cond] at nonneg ⊢
  bv_omega

/-- A front end that may own a run: none, or a waiting one whose line is empty (42_wire_commands R85). -/
def OwnsRun (fe : FrontEnd) (s : State) : Prop := fe = .absent ∨ (∃ m f, fe = .awaiting m f) ∧ s.llen = 0

/-- A transition of a run keeps the invariant, the first one included: the pins show the row of `PHASE` and the hold is
`DELAY` (40_stepping R68, R72). -/
theorem Inv.transition {s : State} (inv : Inv s) (d : Dir) {n : Word32} (nonneg : 0 ≤ n.toInt) (left : n ≠ 0)
    {fe : FrontEnd} (owner : OwnsRun fe s) : Inv (adv { s with fe := fe, dir := d, remain := n, busy := true }) :=
  { inv with
    idle_clear := nofun
    hold_le := BitVec.le_refl _
    remain_nonneg := sub_one_nonneg nonneg left
    pins := .inl rfl
    run_owner := fun _ => owner.imp_right And.left
    awaiting_empty := fun m f waits => by
      rcases owner with absent | ⟨-, empty⟩
      · exact absurd (absent.symm.trans waits) nofun
      · exact empty }

/-- The registers of reset meet the invariant, whatever the parameters (70 R106). -/
theorem Inv.applyReset {s : State} (inv : Inv s) : Inv (applyReset s) :=
  { idle_clear := fun _ => ⟨rfl, rfl⟩
    hold_le := (by decide : State.reset.hold ≤ State.reset.delay)
    delay_pos := (by decide : 0 < State.reset.delay.toInt)
    remain_nonneg := (by decide : 0 ≤ State.reset.remain.toInt)
    llen_le := Nat.zero_le _
    lbuf_wf := Memory.wf_reset
    spr_pos := inv.spr_pos
    table_ok := inv.table_ok
    pins := .inr ⟨rfl, rfl, rfl⟩
    run_owner := nofun
    awaiting_empty := fun _ _ _ => rfl }

/-! ### What a step keeps -/

/-- Whatever an instruction does keeps the invariant, if a port operation is run by a block without front end and a wire
command with the line taken out of the buffer. -/
theorem Effect.inv {i : Instr} {s t : State} (h : Effect i s t) (inv : Inv s) (port : i.isLine = false → s.fe = .absent)
    (line : i.isLine = true → s.llen = 0) : Inv t := by
  have pos_ne_zero : ∀ {n : Word32}, 0 < n.toInt → n ≠ 0 := by
    rintro n pos rfl
    exact absurd pos (by decide)
  cases h with
  | idle => exact inv
  | run n d isPort _ pos => exact inv.transition d pos.le (pos_ne_zero pos) (.inl (port isPort))
  | store us _ idle pos => exact inv.storeDelay idle pos
  | answer => exact inv.inputs_outputs _ _ _
  | reject => exact inv.inputs_outputs _ _ _
  | wireRun m f d n isLine _ pos => exact inv.transition d pos.le (pos_ne_zero pos) (.inr ⟨⟨m, f, rfl⟩, line isLine⟩)
  | wireStore u _ listens pos => exact (inv.storeDelay (listening_iff.mp listens).1 pos).inputs_outputs _ _ _

/-- Settles O57, by the cases of a step. -/
theorem stepKeepsInv : Obligations.StepKeepsInv := by
  intro s t inv h
  cases step_cases h with
  | reset => exact inv.applyReset
  | runEnds _ busy expired done => exact inv.runEnds busy expired done
  | transition _ busy _ left =>
    have owner : OwnsRun s.fe s :=
      (inv.run_owner busy).imp_right fun ⟨m, f, waits⟩ => ⟨⟨m, f, waits⟩, inv.awaiting_empty m f waits⟩
    have next := inv.transition s.dir inv.remain_nonneg left owner
    rwa [← busy] at next
  | holdTick => exact inv.tick
  | restTick => exact inv.tick
  | accept r rest _ _ _ absent _ effect =>
    exact effect.inv (inv.inputs_outputs _ rest _) (fun _ => absent) fun isLine =>
      absurd isLine (by simp [decodeRequest_isLine])
  | boot _ idle => exact (inv.polling idle).inputs_outputs _ _ _
  | complete m f _ idle =>
    rw [completeStep_eq]
    exact (inv.polling idle).inputs_outputs _ _ _
  | ignoreCr rest => exact inv.inputs_outputs rest _ _
  | append b rest _ _ polls => exact (inv.inputs_outputs rest _ _).appendByte polls b
  | emptyLine rest => exact (inv.inputs_outputs rest _ _).emptyLine
  | command rest _ _ _ _ _ _ _ _ isLine _ effect =>
    exact effect.inv (inv.inputs_outputs rest _ _).emptyLine (fun isPort => absurd (isPort.symm.trans isLine) nofun)
      fun _ => rfl

end Sys2Proof.Machine
end

section
/-! SUPPORT. The operation `SETDELAY`: the words that stand for it and what it stores (41_control R77). -/

namespace Sys2Proof.Machine

/-- A positive value is stored (41_control R77). -/
theorem acceptSetdelay_of_pos {us : Word32} (pos : 0 < us.toInt) (s : State) :
    acceptSetdelay us s = { s with delay := us } :=
  if_neg pos.not_ge

/-- Any other value is ignored (41_control R77). -/
theorem acceptSetdelay_of_nonpos {us : Word32} (nonpos : us.toInt ≤ 0) (s : State) : acceptSetdelay us s = s :=
  if_pos nonpos

/-- Settles O16: bit 33 alone selects the operation, which waits for an idle sequencer and then asks for the sign of its
value. -/
theorem setdelayStoresPositive : Obligations.SetdelayStoresPositive := by
  refine ⟨fun dir us => decodeWord_portWord 1 dir us, fun s us =>
    ⟨everyOperationWaitsWhileBusy (.setdelay us) s, fun idle pos => ?_, fun idle nonpos => ?_⟩⟩
  · rw [exec_setdelay idle, acceptSetdelay_of_pos pos]
  · rw [exec_setdelay idle, acceptSetdelay_of_nonpos nonpos]

end Sys2Proof.Machine
end

section
/-! SUPPORT. The wire commands: the decoding of a text line, the answer of each command, and what a rejected command and
an accepted one leave unchanged (42_wire_commands R79 to R86). -/

namespace Sys2Proof

/-- A text line that trims to something is looked up by its normalised command token (30_encoding R56 to R59). -/
theorem decodeLine_of_text {line : List Byte} (text : line.all isText = true) (notEmpty : trim line ≠ []) :
    decodeLine line = .instr (dispatch (upper (commandToken (trim line))) (argString (trim line))) := by
  rw [decodeLine, if_pos text, if_neg notEmpty]

/-- A line with a command token trims to something. -/
theorem trim_ne_nil_of_token {line : List Byte} (token : upper (commandToken (trim line)) ≠ []) : trim line ≠ [] := by
  intro empty
  rw [empty] at token
  exact token rfl

end Sys2Proof

namespace Sys2Proof.Machine

/-! ### The answers of the commands without operands -/

theorem exec_healthcheck {s : State} (listens : listening s = true) (args : List Byte) :
    exec (.healthcheck args) s = .next { s with trace := s.trace ++ [.line .ok, .ind .success] } := by
  rw [exec, execHealthcheck, if_pos listens, acknowledge_eq]

theorem exec_ping {s : State} (listens : listening s = true) (args : List Byte) :
    exec (.ping args) s = .next { s with trace := s.trace ++ [.line .pong, .ind .success] } := by
  rw [exec, execPing, if_pos listens, acknowledge_eq]

theorem exec_unknown {s : State} (listens : listening s = true) (token args : List Byte) :
    exec (.unknown token args) s =
      .next { s with trace := s.trace ++ [.line (.unknownCommand token), .ind .failure] } := by
  rw [exec, execUnknown, if_pos listens, raise_eq]

/-- Settles O29: the look-up finds the name, and the answer is an acknowledgement. -/
theorem healthcheckAnswersOk : Obligations.HealthcheckAnswersOk := by
  refine ⟨fun line text token => ⟨argString (trim line), ?_⟩, fun s args polls idle =>
    exec_healthcheck (listening_iff.mpr ⟨idle, polls⟩) args⟩
  rw [decodeLine_of_text text (trim_ne_nil_of_token (token ▸ by decide)), token]
  rfl

/-- Settles O30: the look-up finds the name, and the answer is an acknowledgement. -/
theorem pingAnswersPong : Obligations.PingAnswersPong := by
  refine ⟨fun line text token => ⟨argString (trim line), ?_⟩, fun s args polls idle =>
    exec_ping (listening_iff.mpr ⟨idle, polls⟩) args⟩
  rw [decodeLine_of_text text (trim_ne_nil_of_token (token ▸ by decide)), token]
  rfl

/-- Settles O31: the look-up falls through, and the error line carries the token. -/
theorem unknownTokenIsReported : Obligations.UnknownTokenIsReported := by
  refine ⟨fun line text notEmpty unregistered => ⟨argString (trim line), ?_⟩, fun token => ?_,
    fun s token args polls idle => exec_unknown (listening_iff.mpr ⟨idle, polls⟩) token args⟩
  · rw [decodeLine_of_text text notEmpty, dispatch_unknown unregistered]
  · rfl

/-! ### `SPEED` -/

/-- The value of an integer token fits 32 bits (30_encoding R64). -/
theorem inRange_value {v u : Int} (h : inRange v = .value u) : Config.minCount ≤ u ∧ u ≤ Config.maxCount := by
  unfold inRange at h
  split at h
  · next fits => cases h; exact fits
  · cases h

theorem noPrefix_ne_value {α : Type} (t : List Byte) (v : α) : noPrefix t ≠ .value v := by
  unfold noPrefix
  split <;> nofun

/-- An integer token has the value of its digits, which was found to fit, or no value (30_encoding R64). -/
theorem parseInt_value_fits {t : List Byte} {u : Int} (h : parseInt t = .value u) :
    Config.minCount ≤ u ∧ u ≤ Config.maxCount := by
  unfold parseInt at h
  split at h
  · exact absurd h (noPrefix_ne_value t u)
  · exact inRange_value h
  · cases h

theorem speedClass_of_pos {u : Int} (pos : 0 < u) : speedClass (.value u) = .ok u := if_neg pos.not_ge

/-- Settles O36: the checks pass, and the word of the value is stored. -/
theorem speedSetsDelay : Obligations.SpeedSetsDelay := by
  intro s args t u polls idle one int pos
  have value : (BitVec.ofInt 32 u).toInt = u := maxCount_toInt pos.not_ge (parseInt_value_fits int).2.not_gt
  refine ⟨BitVec.ofInt 32 u, value, ?_⟩
  rw [exec_speed polls idle, checkSpeed_of_token one, int, speedClass_of_pos pos, handleSpeed,
    acceptSetdelay_of_pos (value.symm ▸ pos), succeed_eq]

/-! ### `STEP` -/

/-- A magnitude above 0 and a flag 0 or 1 pass the checks, with the direction of the flag (42_wire_commands R81). -/
theorem checkStep_valid {args t u : List Byte} {m : Rat} {flag : Bool} (two : tokens args = [t, u])
    (real : parseReal t = .value m) (pos : 0 < m) (int : parseInt u = .value (if flag then 1 else 0)) :
    checkStep args = .ok (m, if flag then .forward else .backward) := by
  rw [checkStep_of_tokens two, real, int, stepClasses, stepValues, if_neg pos.not_ge]
  cases flag <;> rfl

/-- A `STEP` of a positive total starts its run and waits for its end (42_wire_commands R81, R85, 40_stepping R76). -/
theorem handleStep_starts {s : State} {m : Rat} {n : Word32} (count : 0 < n.toInt)
    (total : n.toInt = ⌊m * s.cfg.spr + 1 / 2⌋) (f : Dir) :
    handleStep (.ok (m, f)) s = .next (startedRun { s with fe := .awaiting m f } n f) := by
  have pos : 0 < m := revs_pos_of_floor_pos (total ▸ count)
  rw [handleStep, expandRev_of_pos pos, ← total, expandTotal_stepcnt count, issueStep, acceptStepcnt_of_pos count]

/-- A `STEP` of less than half a step has nothing to wait for (42_wire_commands R81, 40_stepping R76). -/
theorem handleStep_nothing {s : State} {m : Rat} (pos : 0 < m) (below : m * s.cfg.spr < 1 / 2) (f : Dir) :
    handleStep (.ok (m, f)) s =
      .next { s with trace := s.trace ++ [.line (.stepStatus m f), .line .ok, .ind .success] } := by
  rw [handleStep, expandRev_nothing (by rwa [abs_of_pos pos]), issueStep, succeed_eq]

/-- Settles O32: the checks pass and the total is issued. -/
theorem stepStartsItsRun : Obligations.StepStartsItsRun := by
  intro s args t u m flag n polls idle two real pos int count total
  rw [exec_step polls idle, checkStep_valid two real pos int, handleStep_starts count total]

/-- Settles O33: the checks pass and nothing is issued. -/
theorem stepOfNoTransitionAnswersAtOnce : Obligations.StepOfNoTransitionAnswersAtOnce := by
  intro s args t u m flag polls idle two real pos int below
  rw [exec_step polls idle, checkStep_valid two real pos int, handleStep_nothing pos below]

/-- Settles O34: an idle machine whose front end waits completes the `STEP`. -/
theorem stepAnswersAfterItsRun : Obligations.StepAnswersAfterItsRun := by
  intro s m f quiet idle waits
  rw [step_of_idle quiet idle, idleStep, waits]
  exact congrArg _ (completeStep_eq m f s)

/-! ### A `STEP` from its line feed to its answer -/

/-- Settles O26: a step of a run is `TICK`, a transition or the end of the run. -/
theorem runLeavesFrontEndAndOperandsAlone : Obligations.RunLeavesFrontEndAndOperandsAlone := by
  intro s t quiet busy h
  by_cases hold : s.hold = 0
  · rw [step_of_expired quiet busy hold, next_inj] at h
    subst h
    rcases expire_cases s with ⟨-, e⟩ | ⟨-, e⟩
    · rw [e]; exact ⟨rfl, rfl, rfl, rfl, rfl, rfl, rfl, .inl rfl⟩
    · rw [e]; exact ⟨rfl, rfl, rfl, rfl, rfl, rfl, rfl, .inr ⟨_, adv_trace s⟩⟩
  · rw [step_of_hold quiet busy hold, next_inj] at h
    subst h
    exact ⟨rfl, rfl, rfl, rfl, rfl, rfl, rfl, .inl rfl⟩

/-- The front end takes the place of a presenter whether it polls or waits (70 R124). -/
theorem undisturbed_awaiting {s : State} (h : Polls s) (m : Rat) (f : Dir) :
    undisturbed { s with fe := .awaiting m f } := by
  obtain ⟨⟨noReset, noPresenter⟩, -, polls⟩ := h
  refine ⟨noReset, ?_⟩
  rw [← noPresenter, secondPresenter, secondPresenter, polls]
  rfl

/-- The step at the line feed of a valid `STEP` starts its run (30_encoding R54, 42_wire_commands R81). -/
theorem step_of_stepLine {s : State} {rest line args : List Byte} {m : Rat} {f : Dir} {n : Word32} (h : Polls s)
    (unread : s.rx = byteLf :: rest) (held : bufferedLine s = some line)
    (decoded : decodeLine line = .instr (.step args)) (checked : checkStep args = .ok (m, f)) (count : 0 < n.toInt)
    (total : n.toInt = ⌊m * s.cfg.spr + 1 / 2⌋) :
    step s = .next (startedRun { s with rx := rest, llen := 0, fe := .awaiting m f } n f) := by
  rw [step_of_lineFeed h unread held, processLine, decoded]
  obtain ⟨-, idle, polls⟩ := h
  exact (exec_step (s := { s with rx := rest, llen := 0 }) polls idle args).trans
    (checked ▸ handleStep_starts (s := { s with rx := rest, llen := 0 }) count total f)

/-- Settles O25: the line feed starts the run, the run ends with the front end still waiting, and the next step answers. -/
theorem stepCommandRunsToItsAnswer : Obligations.StepCommandRunsToItsAnswer := by
  intro s rest line args m f n polls idle quiet unread held decoded checked count total
  have h : Polls s := ⟨quiet, idle, polls⟩
  have waits := undisturbed_awaiting h m f
  have runs : run (n.toNat * (s.delay.toNat + 1) + 1) s =
      .next { finishedRun { s with rx := rest, llen := 0 } n f with fe := .awaiting m f } := by
    rw [run_succ _ (step_of_stepLine h unread held decoded checked count total)]
    exact run_to_finishedRun (s := { s with rx := rest, llen := 0, fe := .awaiting m f }) waits f
      (toNat_pos_of_toInt_pos count)
  refine ⟨⟨_, runs, rfl⟩, ?_⟩
  rw [run_add (n := 1) runs, run_one]
  refine Eq.trans (stepAnswersAfterItsRun _ m f waits rfl rfl) ?_
  rw [← polls]
  rfl

/-! ### Rejected commands -/

theorem getLast?_of_append_eq {l ps os : List Output} {o : Output} (h : l ++ ps = l ++ os ++ [o]) :
    ps.getLast? = some o := by
  rw [List.append_assoc] at h
  rw [List.append_cancel_left h, List.getLast?_concat]

theorem error_cases {r : Response} (h : r.isError = true) :
    r = .stepUsage ∨ r = .speedUsage ∨ ∃ token, r = .unknownCommand token := by
  cases r with
  | stepUsage => exact .inl rfl
  | speedUsage => exact .inr (.inl rfl)
  | unknownCommand token => exact .inr (.inr ⟨token, rfl⟩)
  | ok | pong | stepStatus | speedStatus | startup => cases h

/-- Settles O44: of all an instruction can do only a rejection ends with the failure indication. -/
theorem rejectedCommandChangesNothing : Obligations.RejectedCommandChangesNothing := by
  intro i s t os h ends
  cases exec_effect h with
  | idle | store => simp at ends
  | run | wireRun | answer | wireStore => exact absurd (getLast?_of_append_eq ends) (by simp)
  | reject r _ _ error =>
    have appended : [.line r] ++ [.ind .failure] = os ++ [.ind .failure] :=
      List.append_cancel_left (ends.trans (List.append_assoc ..))
    exact ⟨r, (List.append_cancel_right appended).symm, error_cases error, rfl⟩

/-! ### Frames -/

/-- A wire command waits unless the front end listens (42_wire_commands R85; log 18). -/
theorem exec_of_deaf {i : Instr} (line : i.isLine = true) {s : State} (deaf : ¬ listening s = true) :
    exec i s = .next s := by
  cases i with
  | stepcnt | setdelay | steprev => cases line
  | healthcheck | ping | step | speed | unknown => exact if_neg deaf

/-- Only the record of outputs has changed, and no pin was written. -/
def OnlyAnswers (s t : State) : Prop := t = { s with trace := t.trace } ∧ pinWrites t.trace = pinWrites s.trace

theorem onlyAnswers_self (s : State) : OnlyAnswers s s := ⟨rfl, rfl⟩

theorem onlyAnswers_append (s : State) {os : List Output} (noPins : pinWrites os = []) :
    OnlyAnswers s { s with trace := s.trace ++ os } :=
  ⟨rfl, by simp [noPins]⟩

/-- `HEALTHCHECK`, `PING` and the unknown token only answer (42_wire_commands R79, R80, R83). -/
theorem exec_plain_frame {s t : State} {token args : List Byte}
    (h : exec (.healthcheck args) s = .next t ∨ exec (.ping args) s = .next t ∨ exec (.unknown token args) s = .next t) :
    OnlyAnswers s t := by
  by_cases listens : listening s = true
  · rw [exec_healthcheck listens, exec_ping listens, exec_unknown listens, next_inj, next_inj, next_inj] at h
    rcases h with rfl | rfl | rfl
    · exact onlyAnswers_append s rfl
    · exact onlyAnswers_append s rfl
    · exact onlyAnswers_append s rfl
  · rw [exec_of_deaf rfl listens, exec_of_deaf rfl listens, exec_of_deaf rfl listens, or_self, or_self, next_inj] at h
    exact h ▸ onlyAnswers_self s

/-- `SPEED` answers, and writes `DELAY` at most (42_wire_commands R82). -/
theorem exec_speed_frame {s t : State} {args : List Byte} (h : exec (.speed args) s = .next t) :
    OnlyAnswers { s with delay := t.delay } t := by
  by_cases listens : listening s = true
  · obtain ⟨idle, polls⟩ := listening_iff.mp listens
    rw [exec_speed polls idle] at h
    rcases handleSpeed_next h with rfl | ⟨u, -, rfl⟩
    · rw [raise_eq]
      exact onlyAnswers_append s rfl
    · rw [succeed_eq]
      rcases acceptSetdelay_cases (BitVec.ofInt 32 u) s with ⟨-, e⟩ | ⟨-, e⟩
      · rw [e]; exact onlyAnswers_append s rfl
      · rw [e]; exact onlyAnswers_append { s with delay := BitVec.ofInt 32 u } rfl
  · rw [exec_of_deaf rfl listens, next_inj] at h
    exact h ▸ onlyAnswers_self s

/-- `STEP` answers, or starts a run for which the front end waits (42_wire_commands R81, R85). -/
theorem exec_step_next {s t : State} {args : List Byte} (h : exec (.step args) s = .next t) :
    OnlyAnswers s t ∨ s.busy = false ∧ ∃ m f n d, t = startedRun { s with fe := .awaiting m f } n d := by
  by_cases listens : listening s = true
  · obtain ⟨idle, polls⟩ := listening_iff.mp listens
    rw [exec_step polls idle] at h
    rcases handleStep_next h with rfl | ⟨m, f, -, -, rfl⟩ | ⟨m, f, n, d, -, issued, rfl⟩
    · exact .inl (raise_eq _ s ▸ onlyAnswers_append s rfl)
    · exact .inl (succeed_eq _ s ▸ onlyAnswers_append s rfl)
    · exact .inr ⟨idle, m, f, n, d, acceptStepcnt_of_pos (expandRev_pos issued) d _⟩
  · rw [exec_of_deaf rfl listens, next_inj] at h
    exact .inl (h ▸ onlyAnswers_self s)

/-- Settles O46: four commands only answer, but for the `DELAY` of a `SPEED`, and a `STEP` answers or starts a run. -/
theorem wireCommandsFrame : Obligations.WireCommandsFrame := by
  refine ⟨fun s t token args => exec_plain_frame, fun s t args => exec_speed_frame, fun s t args h => ?_⟩
  rcases exec_step_next h with ⟨answers, -⟩ | ⟨idle, m, f, n, d, rfl⟩
  · rw [answers]
    exact ⟨rfl, rfl, fun _ => rfl, rfl, rfl, rfl, rfl, rfl, rfl, rfl, .inl rfl⟩
  · exact ⟨rfl, rfl, fun _ => rfl, rfl, rfl, rfl, rfl, rfl, rfl, rfl, .inr ⟨idle, rfl, linesOf_append_pins _ _ _⟩⟩

end Sys2Proof.Machine
end

section
/-! SUPPORT. The usage errors of `STEP` and `SPEED`: every cause, and the answer (60_exceptions R90, R91, 42_wire_commands
R81, R82). -/

namespace Sys2Proof.Machine

/-! ### The checks of a `STEP` that end in a usage error -/

theorem checkStep_of_length {args : List Byte} (h : (tokens args).length ≠ 2) : checkStep args = .usage := by
  rw [checkStep]
  match tokens args, h with
  | [], _ => rfl
  | [_], _ => rfl
  | [_, _], notTwo => exact absurd rfl notTwo
  | _ :: _ :: _ :: _, _ => rfl

theorem stepValues_of_nonpos {m : Rat} (nonpos : m ≤ 0) (f : Int) : stepValues m f = .usage := if_pos nonpos

/-- A flag other than 0 and 1 is a usage error, whatever the magnitude (42_wire_commands R81). -/
theorem stepValues_of_badFlag {f : Int} (not0 : f ≠ 0) (not1 : f ≠ 1) (m : Rat) : stepValues m f = .usage := by
  rw [stepValues, if_neg not0, if_neg not1, ite_self]

/-- A magnitude that is no real is a usage error, if the flag is not refused (42_wire_commands R81). -/
theorem stepClasses_magnitude_failure {f : Parsed Int} (h : ∀ r, f ≠ .refused r) : stepClasses .failure f = .usage := by
  cases f with
  | value => rfl
  | refused r => exact absurd rfl (h r)
  | failure => rfl

/-- A flag that is no integer is a usage error, if the magnitude is not refused (42_wire_commands R81). -/
theorem stepClasses_flag_failure {m : Parsed Rat} (h : ∀ r, m ≠ .refused r) : stepClasses m .failure = .usage := by
  cases m with
  | value => rfl
  | refused r => exact absurd rfl (h r)
  | failure => rfl

/-- A magnitude not above 0 is a usage error, if the flag is not refused (42_wire_commands R81). -/
theorem stepClasses_magnitude_nonpos {m : Rat} (nonpos : m ≤ 0) {f : Parsed Int} (h : ∀ r, f ≠ .refused r) :
    stepClasses (.value m) f = .usage := by
  cases f with
  | value f => exact stepValues_of_nonpos nonpos f
  | refused r => exact absurd rfl (h r)
  | failure => rfl

/-- A flag other than 0 and 1 is a usage error, if the magnitude is not refused (42_wire_commands R81). -/
theorem stepClasses_badFlag {f : Int} (not0 : f ≠ 0) (not1 : f ≠ 1) {m : Parsed Rat} (h : ∀ r, m ≠ .refused r) :
    stepClasses m (.value f) = .usage := by
  cases m with
  | value m => exact stepValues_of_badFlag not0 not1 m
  | refused r => exact absurd rfl (h r)
  | failure => rfl

/-- A usage error of `STEP` leaves its line and the failure indication, and nothing else (60_exceptions R88, R90). -/
theorem exec_step_usage {s : State} {args : List Byte} (polls : s.fe = .polling) (idle : s.busy = false)
    (usage : checkStep args = .usage) :
    exec (.step args) s = .next { s with trace := s.trace ++ [.line .stepUsage, .ind .failure] } := by
  rw [exec_step polls idle, usage, handleStep, raise_eq]

/-- Settles O35: the number of tokens is looked at first, and then each of the four faults of two tokens is enough. -/
theorem stepUsageCauses : Obligations.StepUsageCauses := by
  intro s args polls idle cause
  refine exec_step_usage polls idle ?_
  rcases cause with notTwo | ⟨t, u, two, realTaken, intTaken, cause⟩
  · exact checkStep_of_length notTwo
  · rw [checkStep_of_tokens two]
    rcases cause with noReal | ⟨m, real, nonpos⟩ | noInt | ⟨f, int, not0, not1⟩
    · rw [noReal]; exact stepClasses_magnitude_failure intTaken
    · rw [real]; exact stepClasses_magnitude_nonpos nonpos intTaken
    · rw [noInt]; exact stepClasses_flag_failure realTaken
    · rw [int]; exact stepClasses_badFlag not0 not1 realTaken

/-! ### The checks of a `SPEED` that end in a usage error -/

theorem checkSpeed_of_noToken {args : List Byte} (h : tokens args = []) : checkSpeed args = .usage := by
  rw [checkSpeed, h, checkSpeedTokens]

theorem speedClass_of_nonpos {u : Int} (nonpos : u ≤ 0) : speedClass (.value u) = .usage := if_pos nonpos

/-- A usage error of `SPEED` leaves its line and the failure indication, and nothing else (60_exceptions R88, R91). -/
theorem exec_speed_usage {s : State} {args : List Byte} (polls : s.fe = .polling) (idle : s.busy = false)
    (usage : checkSpeed args = .usage) :
    exec (.speed args) s = .next { s with trace := s.trace ++ [.line .speedUsage, .ind .failure] } := by
  rw [exec_speed polls idle, usage, handleSpeed, raise_eq]

/-- Settles O37: no token, a token that is no integer, and one that is not above 0. -/
theorem speedUsageCauses : Obligations.SpeedUsageCauses := by
  intro s args polls idle cause
  refine exec_speed_usage polls idle ?_
  rcases cause with none | ⟨t, one, noInt | ⟨u, int, nonpos⟩⟩
  · exact checkSpeed_of_noToken none
  · rw [checkSpeed_of_token one, noInt, speedClass]
  · rw [checkSpeed_of_token one, int, speedClass_of_nonpos nonpos]

end Sys2Proof.Machine
end

section
/-! SUPPORT. What a step can stop with: no fault while `LLEN` is within the buffer, and a refusal only for what the spec
marks `refuse` or excludes (60_exceptions R97, 00_scope R11). -/

namespace Sys2Proof.Machine

/-- The reasons the spec itself gives for a refusal: all but the want of a meaning (00_scope R11, 70 R124). -/
def Refusal.isMarked : Refusal → Bool
  | .notModelled _ => false
  | .lineNotAscii => true
  | .greyNumber => true
  | .integerOutOfRange => true
  | .totalOutOfRange => true
  | .speedExtraTokens => true
  | .secondPresenter => true

/-- The outcome of an input that has a meaning, or of one that the spec gives none: a next state or a marked refusal. -/
inductive Defined : Host.Outcome State Fault Refusal → Prop where
  | next (t : State) : Defined (.next t)
  | refused {r : Refusal} (marked : r.isMarked = true) : Defined (.refused r)

theorem Defined.ne_fault {o : Host.Outcome State Fault Refusal} (h : Defined o) (r : Fault) : o ≠ .fault r := by
  cases h with
  | next => nofun
  | refused => nofun

theorem Defined.ne_notModelled {o : Host.Outcome State Fault Refusal} (h : Defined o) (name : String) :
    o ≠ .refused (.notModelled name) := by
  rintro rfl
  cases h with
  | refused marked => cases marked

/-- An operation that may have to wait stops with nothing but what it stops with once it is taken. -/
theorem Defined.or_waits {o : Host.Outcome State Fault Refusal} (h : Defined o) (taken : Prop) [Decidable taken]
    (s : State) : Defined (if taken then o else .next s) := by
  split
  · exact h
  · exact .next s

/-! ### The refusals of numeric tokens -/

theorem noPrefix_refused {α : Type} {t : List Byte} {r : Refusal} (h : (noPrefix t : Parsed α) = .refused r) :
    r = .greyNumber := by
  unfold noPrefix at h
  split at h
  · exact (Parsed.refused.inj h).symm
  · cases h

theorem fullOnly_refused {α : Type} {rest : List Byte} {v : α} {r : Refusal} (h : fullOnly rest v = .refused r) :
    r = .greyNumber := by
  cases rest with
  | nil => cases h
  | cons => exact (Parsed.refused.inj h).symm

/-- A real token is refused for its grey zone only (30_encoding R63, U2). -/
theorem parseReal_refused {t : List Byte} {r : Refusal} (h : parseReal t = .refused r) : r = .greyNumber := by
  simp only [parseReal] at h
  split at h
  · exact noPrefix_refused h
  · split at h
    · exact fullOnly_refused h
    · exact noPrefix_refused h
  · cases h
  · split at h
    · exact fullOnly_refused h
    · exact (Parsed.refused.inj h).symm

theorem inRange_refused {v : Int} {r : Refusal} (h : inRange v = .refused r) : r = .integerOutOfRange := by
  unfold inRange at h
  split at h
  · cases h
  · exact (Parsed.refused.inj h).symm

/-- An integer token is refused for its grey zone or its range (30_encoding R64, U2, U5). -/
theorem parseInt_refused {t : List Byte} {r : Refusal} (h : parseInt t = .refused r) :
    r = .greyNumber ∨ r = .integerOutOfRange := by
  unfold parseInt at h
  split at h
  · exact .inl (noPrefix_refused h)
  · exact .inr (inRange_refused h)
  · exact .inl (Parsed.refused.inj h).symm

theorem isMarked_of_parseReal {t : List Byte} {r : Refusal} (h : parseReal t = .refused r) : r.isMarked = true := by
  rw [parseReal_refused h]; rfl

theorem isMarked_of_parseInt {t : List Byte} {r : Refusal} (h : parseInt t = .refused r) : r.isMarked = true := by
  rcases parseInt_refused h with rfl | rfl
  · rfl
  · rfl

/-! ### The refusals of the checks -/

theorem stepValues_ne_refused (m : Rat) (f : Int) (r : Refusal) : stepValues m f ≠ .refused r := by
  unfold stepValues
  split
  · nofun
  · split
    · nofun
    · split
      · nofun
      · nofun

/-- The checks of a `STEP` refuse what refuses one of its tokens (42_wire_commands R81). -/
theorem stepClasses_refused {m : Parsed Rat} {f : Parsed Int} {r : Refusal} (h : stepClasses m f = .refused r) :
    m = .refused r ∨ f = .refused r := by
  cases m with
  | refused q => exact .inl (congrArg _ (Checked.refused.inj h))
  | value v =>
    cases f with
    | refused q => exact .inr (congrArg _ (Checked.refused.inj h))
    | value w => exact absurd h (stepValues_ne_refused v w r)
    | failure => cases h
  | failure =>
    cases f with
    | refused q => exact .inr (congrArg _ (Checked.refused.inj h))
    | value => cases h
    | failure => cases h

theorem isMarked_of_checkStep {args : List Byte} {r : Refusal} (h : checkStep args = .refused r) : r.isMarked = true := by
  by_cases two : (tokens args).length = 2
  · obtain ⟨t, u, two⟩ := List.length_eq_two.mp two
    rw [checkStep_of_tokens two] at h
    rcases stepClasses_refused h with real | int
    · exact isMarked_of_parseReal real
    · exact isMarked_of_parseInt int
  · rw [checkStep_of_length two] at h
    cases h

theorem speedClass_refused {u : Parsed Int} {r : Refusal} (h : speedClass u = .refused r) : u = .refused r := by
  cases u with
  | refused q => exact congrArg _ (Checked.refused.inj h)
  | failure => cases h
  | value u =>
    simp only [speedClass] at h
    split at h
    · cases h
    · cases h

theorem isMarked_of_checkSpeed {args : List Byte} {r : Refusal} (h : checkSpeed args = .refused r) :
    r.isMarked = true := by
  unfold checkSpeed checkSpeedTokens at h
  split at h
  · cases h
  · exact isMarked_of_parseInt (speedClass_refused h)
  · obtain rfl := Checked.refused.inj h
    rfl

/-! ### What the instructions stop with -/

theorem issueExpansion_defined (e : Expansion) (s : State) : Defined (issueExpansion e s) := by
  cases e with
  | nothing => exact .next _
  | stepcnt => exact .next _
  | refused => exact .refused rfl

theorem issueStep_defined (e : Expansion) (m : Rat) (f : Dir) (s : State) : Defined (issueStep e m f s) := by
  cases e with
  | nothing => exact .next _
  | stepcnt => exact .next _
  | refused => exact .refused rfl

theorem handleStep_defined (args : List Byte) (s : State) : Defined (handleStep (checkStep args) s) := by
  cases checked : checkStep args with
  | usage => exact .next _
  | refused r => exact .refused (isMarked_of_checkStep checked)
  | ok values => exact issueStep_defined _ _ _ s

theorem handleSpeed_defined (args : List Byte) (s : State) : Defined (handleSpeed (checkSpeed args) s) := by
  cases checked : checkSpeed args with
  | usage => exact .next _
  | refused r => exact .refused (isMarked_of_checkSpeed checked)
  | ok u => exact .next _

/-- Every instruction has a meaning in every state, but for the operands the spec marks `refuse` (60_exceptions R97). -/
theorem exec_defined (i : Instr) (s : State) : Defined (exec i s) := by
  cases i with
  | stepcnt n d => exact (Defined.next _).or_waits _ s
  | setdelay us => exact (Defined.next _).or_waits _ s
  | steprev revs d => exact (issueExpansion_defined _ s).or_waits _ s
  | healthcheck => exact (Defined.next _).or_waits _ s
  | ping => exact (Defined.next _).or_waits _ s
  | step args => exact (handleStep_defined args s).or_waits _ s
  | speed args => exact (handleSpeed_defined args s).or_waits _ s
  | unknown token => exact (Defined.next _).or_waits _ s

/-! ### What a step stops with -/

theorem processLine_defined (line : List Byte) (s : State) : Defined (processLine line s) := by
  unfold processLine
  split
  · exact exec_defined _ s
  · exact .next s
  · exact .refused rfl

/-- The line that a line feed completes is in the buffer, if `LLEN` is at most 200 (10_state R26, 20_memory R35). -/
theorem completeLine_defined {s : State} (fits : s.llen.toNat ≤ Config.lineMax) : Defined (completeLine s) := by
  rw [completeLine, bufferedLine, if_pos fits]
  exact processLine_defined _ _

theorem assemble_defined (b : Byte) {s : State} (fits : s.llen.toNat ≤ Config.lineMax) : Defined (assemble b s) := by
  unfold assemble
  split
  · exact .next s
  · split
    · exact completeLine_defined fits
    · exact .next _

theorem acceptRequest_defined (s : State) : Defined (acceptRequest s) := by
  unfold acceptRequest
  split
  · exact .next _
  · exact exec_defined _ _

theorem poll_defined {s : State} (fits : s.llen.toNat ≤ Config.lineMax) : Defined (poll s) := by
  unfold poll
  split
  · exact .next _
  · exact assemble_defined _ fits

theorem idleStep_defined {s : State} (fits : s.llen.toNat ≤ Config.lineMax) : Defined (idleStep s) := by
  unfold idleStep
  split
  · exact acceptRequest_defined s
  · exact .next _
  · exact .next _
  · exact poll_defined fits

/-- The one fault of the model is that of a line beyond the buffer, and no other bound of the invariant is needed to
exclude it (60_exceptions R97; log 23). -/
theorem step_defined {s : State} (fits : s.llen.toNat ≤ Config.lineMax) : Defined (step s) := by
  unfold step cycle
  split
  · exact .next _
  · split
    · exact .refused rfl
    · split
      · exact .next _
      · exact .next _
      · exact idleStep_defined fits

/-- Settles O59: the invariant keeps `LLEN` within the buffer. -/
theorem invStatesNeverFault : Obligations.InvStatesNeverFault := fun _ inv =>
  ⟨(step_defined inv.llen_le).ne_fault, (step_defined inv.llen_le).ne_notModelled⟩

/-! ### The states of a run -/

/-- The registers of a machine right after reset meet the invariant (70 R106). -/
theorem inv_freshState {p : Params} (spr : 0 < p.spr) (table : p.table.admissible = true) (withFrontEnd : Bool) :
    Inv (freshState p withFrontEnd) :=
  { idle_clear := fun _ => ⟨rfl, rfl⟩
    hold_le := (by decide : State.reset.hold ≤ State.reset.delay)
    delay_pos := (by decide : 0 < State.reset.delay.toInt)
    remain_nonneg := (by decide : 0 ≤ State.reset.remain.toInt)
    llen_le := Nat.zero_le _
    lbuf_wf := Memory.wf_reset
    spr_pos := spr
    table_ok := table
    pins := .inr ⟨rfl, rfl, rfl⟩
    run_owner := nofun
    awaiting_empty := fun _ _ _ => rfl }

/-- The host reaches no register (10_state R28, 70 R124). -/
theorem Inv.hostMove {s : State} (inv : Inv s) (m : HostMove) : Inv (hostMove m s) := by
  rw [hostMove_frame]
  exact { inv with }

/-- The invariant holds after reset, and every step and every move of the host keeps it (40_stepping R72, 70 R124). -/
theorem Reachable.inv {s : State} (h : Reachable s) : Inv s := by
  induction h with
  | fresh p withFrontEnd spr table => exact inv_freshState spr table withFrontEnd
  | step _ next inv => exact stepKeepsInv _ _ inv next
  | host _ m inv => exact inv.hostMove m

/-- Settles O58: the states of a run meet the invariant, by induction over the run, and no state that does faults. -/
theorem reachableStatesAreSafe : Obligations.ReachableStatesAreSafe := fun s reachable =>
  ⟨reachable.inv, (invStatesNeverFault s reachable.inv).1⟩

end Sys2Proof.Machine
end

section
/-! SUPPORT. Reset and the first step after it: what `rst` forces, the startup line, and a presenter that is not admitted
(70 R105 to R110, R124). -/

namespace Sys2Proof.Machine

/-! ### The registers of reset -/

/-- Settles O50: the values are those the reset state is written with. -/
theorem resetRegisters : Obligations.ResetRegisters :=
  ⟨rfl, rfl, rfl, rfl, rfl, rfl, rfl, rfl, rfl, rfl, rfl, by decide⟩

/-- Settles O56: the reset state is a fresh one with the configured parameters and a front end. -/
theorem resetSatisfiesInv : Obligations.ResetSatisfiesInv :=
  have fresh : ∀ (p : Params) (fe : Bool), 0 < p.spr → p.table.admissible = true → Inv (freshState p fe) :=
    fun _ fe spr table => inv_freshState spr table fe
  ⟨fresh Config.params true (by decide) (by decide), fresh⟩

/-! ### `rst` -/

/-- `rst` is taken before anything else (70 R107; log 6). -/
theorem step_of_rst {s : State} (asserted : s.rst = true) : step s = .next (applyReset s) := if_pos asserted

/-- After reset a front end stands at its startup line, and a block without one has none (70 R109, R110). -/
theorem afterReset_eq (fe : FrontEnd) : fe.afterReset = if fe = .absent then .absent else .booting := by
  cases fe <;> rfl

/-- Settles O51: the step is `applyReset`, which takes its registers from the reset state. -/
theorem rstForcesResetState : Obligations.RstForcesResetState := by
  intro s asserted
  refine ⟨applyReset s, step_of_rst asserted, rfl, rfl, rfl, rfl, rfl, rfl, rfl, rfl, rfl, rfl, ?_⟩
  have fe : (applyReset s).fe = if s.fe = .absent then .absent else .booting := afterReset_eq s.fe
  by_cases absent : s.fe = .absent
  · simp [fe, absent]
  · simp [fe, absent]

/-! ### The startup line and the second presenter -/

/-- Settles O52: the idle step of a front end at its startup line is `boot`. -/
theorem startupLineComesFirst : Obligations.StartupLineComesFirst := by
  intro s quiet idle booting
  rw [step_of_idle quiet idle, idleStep, booting]
  rfl

/-- Without `rst` a second presenter is refused before anything else is done (70 R124; log 7). -/
theorem step_of_secondPresenter {s : State} (noReset : s.rst = false) (second : secondPresenter s = true) :
    step s = .refused .secondPresenter := by
  rw [step, cycle, if_neg (by simp [noReset]), if_pos second]

/-- Settles O53: a request at the port beside a front end is a second presenter. -/
theorem secondPresenterIsRefused : Obligations.SecondPresenterIsRefused := fun _ _ _ noReset present presented =>
  step_of_secondPresenter noReset (by simp [secondPresenter, present, presented])

end Sys2Proof.Machine
end

section
/-! SUPPORT. Why a step is refused: for a line, for an operand, or for a second presenter, and for the last only where
there is one (60_exceptions R97, 70 R124). -/

namespace Sys2Proof.Machine

/-! ### The reasons of the operands -/

/-- A `STEP` is refused in its checks for a numeric token (30_encoding R63, R64). -/
theorem checkStep_refused {args : List Byte} {r : Refusal} (h : checkStep args = .refused r) :
    r = .greyNumber ∨ r = .integerOutOfRange := by
  by_cases two : (tokens args).length = 2
  · obtain ⟨t, u, two⟩ := List.length_eq_two.mp two
    rw [checkStep_of_tokens two] at h
    rcases stepClasses_refused h with real | int
    · exact .inl (parseReal_refused real)
    · exact parseInt_refused int
  · rw [checkStep_of_length two] at h
    cases h

/-- A `SPEED` is refused in its checks for its numeric token or for a second token (30_encoding R64, 42_wire_commands
R82). -/
theorem checkSpeed_refused {args : List Byte} {r : Refusal} (h : checkSpeed args = .refused r) :
    (r = .greyNumber ∨ r = .integerOutOfRange) ∨ r = .speedExtraTokens := by
  unfold checkSpeed checkSpeedTokens at h
  split at h
  · cases h
  · exact .inl (parseInt_refused (speedClass_refused h))
  · exact .inr (Checked.refused.inj h).symm

theorem issueExpansion_refused {e : Expansion} {s : State} {r : Refusal} (h : issueExpansion e s = .refused r) :
    r = .totalOutOfRange := by
  cases e with
  | nothing => cases h
  | stepcnt => cases h
  | refused => exact (Host.Outcome.refused.inj h).symm

/-- A handled `STEP` is refused by its checks or for its total (40_stepping R76, 42_wire_commands R81). -/
theorem handleStep_refused {c : Checked (Rat × Dir)} {s : State} {r : Refusal} (h : handleStep c s = .refused r) :
    c = .refused r ∨ r = .totalOutOfRange := by
  cases c with
  | usage => cases h
  | refused q => exact .inl (congrArg _ (Host.Outcome.refused.inj h))
  | ok values =>
    simp only [handleStep, issueStep] at h
    split at h
    · cases h
    · cases h
    · exact .inr (Host.Outcome.refused.inj h).symm

theorem handleSpeed_refused {c : Checked Int} {s : State} {r : Refusal} (h : handleSpeed c s = .refused r) :
    c = .refused r := by
  cases c with
  | usage => cases h
  | refused q => exact congrArg _ (Host.Outcome.refused.inj h)
  | ok u => cases h

/-! ### The reasons of the instructions and of a step -/

/-- An operation that may have to wait is refused for nothing but what refuses it once it is taken. -/
theorem refused_of_or_waits {taken : Prop} [Decidable taken] {o : Host.Outcome State Fault Refusal} {s : State}
    {r : Refusal} (h : (if taken then o else .next s) = .refused r) : o = .refused r := by
  split at h
  · exact h
  · cases h

/-- No instruction is refused for a presenter: who presents it is not its affair. -/
theorem exec_ne_secondPresenter (i : Instr) (s : State) : exec i s ≠ .refused .secondPresenter := by
  intro h
  cases i with
  | stepcnt n d => cases refused_of_or_waits h
  | setdelay us => cases refused_of_or_waits h
  | steprev revs d => cases issueExpansion_refused (refused_of_or_waits h)
  | healthcheck => cases refused_of_or_waits h
  | ping => cases refused_of_or_waits h
  | step args =>
    rcases handleStep_refused (refused_of_or_waits h) with checked | total
    · exact absurd (checkStep_refused checked) (by decide)
    · cases total
  | speed args => exact absurd (checkSpeed_refused (handleSpeed_refused (refused_of_or_waits h))) (by decide)
  | unknown token => cases refused_of_or_waits h

/-- A received byte is refused for a line that is no text or by the instruction of its line (30_encoding R54, R60). -/
theorem assemble_refused {b : Byte} {s : State} {r : Refusal} (h : assemble b s = .refused r) :
    r = .lineNotAscii ∨ ∃ i t, exec i t = .refused r := by
  unfold assemble at h
  split at h
  · cases h
  · split at h
    · unfold completeLine at h
      split at h
      · unfold processLine at h
        split at h
        · exact .inr ⟨_, _, h⟩
        · cases h
        · exact .inl (Host.Outcome.refused.inj h).symm
      · cases h
    · cases h

theorem idleStep_refused {s : State} {r : Refusal} (h : idleStep s = .refused r) :
    r = .lineNotAscii ∨ ∃ i t, exec i t = .refused r := by
  unfold idleStep at h
  split at h
  · unfold acceptRequest at h
    split at h
    · cases h
    · exact .inr ⟨_, _, h⟩
  · cases h
  · cases h
  · unfold poll at h
    split at h
    · cases h
    · exact assemble_refused h

/-- Undisturbed, a step is refused for a line that is no text or by the instruction it runs (30_encoding R60, 70 R124). -/
theorem step_refused {s : State} {r : Refusal} (quiet : undisturbed s) (h : step s = .refused r) :
    r = .lineNotAscii ∨ ∃ i t, exec i t = .refused r := by
  cases busy : s.busy with
  | false =>
    rw [step_of_idle quiet busy] at h
    exact idleStep_refused h
  | true =>
    rw [step_eq_runEvent quiet busy] at h
    cases h

theorem step_ne_secondPresenter {s : State} (quiet : undisturbed s) : step s ≠ .refused .secondPresenter := by
  intro h
  rcases step_refused quiet h with notText | ⟨i, t, h⟩
  · cases notText
  · exact exec_ne_secondPresenter i t h

end Sys2Proof.Machine
end

section
/-! SUPPORT. The machine comes to rest: every step of an undisturbed machine that is not at rest takes an input, owes the
outside less, or brings its run nearer to the end (70 R123, 40_stepping R73). -/

namespace Sys2Proof.Machine

/-! ### Inputs that only become fewer -/

/-- `rst`, the unread bytes and the presented requests of `t` are what `s` had, or the end of it, and `t` has a front end if
`s` has one. -/
structure Consumes (s t : State) : Prop where
  rst : t.rst = s.rst
  port : t.fe = .absent ↔ s.fe = .absent
  rx : t.rx <:+ s.rx
  cmds : t.cmds <:+ s.cmds

/-- A front end that is present stays present, wherever it stands. -/
theorem consumes_present {s t : State} (rst : t.rst = s.rst) (before : s.fe ≠ .absent) (after : t.fe ≠ .absent)
    (rx : t.rx <:+ s.rx) (cmds : t.cmds <:+ s.cmds) : Consumes s t :=
  ⟨rst, iff_of_false after before, rx, cmds⟩

/-- An instruction leaves the inputs alone, and the front end too, or a polling one waits after it (42_wire_commands
R85). -/
theorem Effect.inputs {i : Instr} {s t : State} (h : Effect i s t) :
    t.rst = s.rst ∧ t.rx = s.rx ∧ t.cmds = s.cmds ∧ (t.fe = s.fe ∨ s.fe = .polling ∧ ∃ m f, t.fe = .awaiting m f) := by
  cases h with
  | idle => exact ⟨rfl, rfl, rfl, .inl rfl⟩
  | run => exact ⟨rfl, rfl, rfl, .inl rfl⟩
  | store => exact ⟨rfl, rfl, rfl, .inl rfl⟩
  | answer => exact ⟨rfl, rfl, rfl, .inl rfl⟩
  | reject => exact ⟨rfl, rfl, rfl, .inl rfl⟩
  | wireRun m f d n _ listens => exact ⟨rfl, rfl, rfl, .inr ⟨(listening_iff.mp listens).2, m, f, rfl⟩⟩
  | wireStore => exact ⟨rfl, rfl, rfl, .inl rfl⟩

theorem Effect.port {i : Instr} {s t : State} (h : Effect i s t) : t.fe = .absent ↔ s.fe = .absent := by
  obtain ⟨-, -, -, same | ⟨polls, m, f, waits⟩⟩ := h.inputs
  · rw [same]
  · simp [polls, waits]

/-- What is run after an input is taken takes no more. -/
theorem Effect.consumes {i : Instr} {s t : State} {bytes : List Byte} {requests : List Request} {l : BitVec 8}
    (h : Effect i { s with rx := bytes, cmds := requests, llen := l } t) (rx : bytes <:+ s.rx)
    (cmds : requests <:+ s.cmds) : Consumes s t := by
  obtain ⟨sameRst, sameRx, sameCmds, -⟩ := h.inputs
  exact ⟨sameRst, h.port, sameRx ▸ rx, sameCmds ▸ cmds⟩

/-- Every step but `rst` consumes inputs and adds none. -/
theorem step_consumes {s t : State} (noReset : s.rst = false) (h : step s = .next t) : Consumes s t := by
  cases step_cases h with
  | reset asserted => exact absurd (noReset.symm.trans asserted) nofun
  | runEnds => exact ⟨rfl, .rfl, List.suffix_rfl, List.suffix_rfl⟩
  | transition => exact ⟨rfl, .rfl, List.suffix_rfl, List.suffix_rfl⟩
  | holdTick => exact ⟨rfl, .rfl, List.suffix_rfl, List.suffix_rfl⟩
  | restTick => exact ⟨rfl, .rfl, List.suffix_rfl, List.suffix_rfl⟩
  | accept r rest _ _ _ _ presented effect =>
    exact effect.consumes List.suffix_rfl (presented ▸ List.suffix_cons r rest)
  | boot _ _ booting => exact consumes_present rfl (by simp [booting]) nofun List.suffix_rfl List.suffix_rfl
  | complete m f _ _ waits => exact consumes_present rfl (by simp [waits]) nofun List.suffix_rfl List.suffix_rfl
  | ignoreCr rest _ _ _ unread => exact ⟨rfl, .rfl, unread ▸ List.suffix_cons _ rest, List.suffix_rfl⟩
  | append b rest _ _ _ unread =>
    rw [appendByte_frame]
    exact ⟨rfl, .rfl, unread ▸ List.suffix_cons b rest, List.suffix_rfl⟩
  | emptyLine rest _ _ _ unread => exact ⟨rfl, .rfl, unread ▸ List.suffix_cons _ rest, List.suffix_rfl⟩
  | command rest _ _ _ _ _ _ unread _ _ _ effect =>
    exact effect.consumes (unread ▸ List.suffix_cons _ rest) List.suffix_rfl

/-- The input has stopped: no `rst`, no second presenter, and no bytes sent to a block without front end. -/
def InputStopped (s : State) : Prop := undisturbed s ∧ (s.fe = .absent → s.rx = [])

theorem secondPresenter_eq_false_iff {s : State} : secondPresenter s = false ↔ (s.fe ≠ .absent → s.cmds = []) := by
  simp [secondPresenter]

/-- Consuming inputs does not bring one back. -/
theorem InputStopped.of_consumes {s t : State} (stopped : InputStopped s) (h : Consumes s t) : InputStopped t := by
  obtain ⟨⟨noReset, noPresenter⟩, noByte⟩ := stopped
  obtain ⟨rst, port, rx, cmds⟩ := h
  rw [secondPresenter_eq_false_iff] at noPresenter
  refine ⟨⟨rst.trans noReset, secondPresenter_eq_false_iff.mpr fun present => ?_⟩, fun absent => ?_⟩
  · exact List.suffix_nil.mp (noPresenter (mt port.mpr present) ▸ cmds)
  · exact List.suffix_nil.mp (noByte (port.mp absent) ▸ rx)

/-! ### What is left to do -/

/-- The answer a front end owes: its startup line, or the end of a `STEP`. -/
def FrontEnd.owed : FrontEnd → Nat
  | .absent => 0
  | .booting => 1
  | .polling => 0
  | .awaiting _ _ => 1

/-- What an idle machine has to do: two for each input, which may leave an answer owed, and one for that. -/
def pending (s : State) : Nat := 2 * s.cmds.length + 2 * s.rx.length + s.fe.owed

/-- The steps left of a run, as `RunEndsFromAnyMoment` counts them: the rest of the hold, a hold and its `EXPIRE` for each
transition, and the last `EXPIRE` (40_stepping R73 (c)). -/
def runLeft (s : State) : Nat :=
  if s.busy then s.hold.toNat + s.remain.toNat * (s.delay.toNat + 1) + 1 else 0

/-- `t` is nearer to rest than `s`: it has less to do, or it has the same to do after a run of which less is left. -/
def NearerRest (t s : State) : Prop := Prod.Lex (· < ·) (· < ·) (pending t, runLeft t) (pending s, runLeft s)

theorem nearerRest_wf : WellFounded NearerRest :=
  InvImage.wf (fun s => (pending s, runLeft s)) (wellFounded_lt.prod_lex wellFounded_lt)

theorem nearerRest_of_pending {s t : State} (h : pending t < pending s) : NearerRest t s := .left _ _ h

theorem nearerRest_of_runLeft {s t : State} (same : pending t = pending s) (h : runLeft t < runLeft s) :
    NearerRest t s := by
  rw [NearerRest, same]
  exact .right _ h

/-- An instruction leaves at most one answer owed that was not owed before. -/
theorem Effect.pending_le {i : Instr} {s t : State} (h : Effect i s t) : pending t ≤ pending s + 1 := by
  obtain ⟨-, rx, cmds, same | ⟨polls, m, f, waits⟩⟩ := h.inputs
  · simp [pending, rx, cmds, same]
  · simp [pending, rx, cmds, polls, waits, FrontEnd.owed]

/-- An `EXPIRE` that makes a transition spends it and begins its hold (40_stepping R68). -/
theorem runLeft_adv {s : State} (busy : s.busy = true) (left : s.remain ≠ 0) : runLeft (adv s) < runLeft s := by
  have spent : s.remain.toNat = (s.remain - 1).toNat + 1 := by bv_omega
  simp only [runLeft, adv_busy, adv_hold, adv_remain, adv_delay, busy, if_true, spent, Nat.succ_mul]
  omega

/-- A tick spends one of the hold (40_stepping R69). -/
theorem runLeft_tick {s : State} (busy : s.busy = true) (hold : s.hold ≠ 0) : runLeft (tick s) < runLeft s := by
  have spent : (s.hold - 1).toNat < s.hold.toNat := by bv_omega
  simp only [runLeft, tick_busy, tick_hold, tick_remain, tick_delay, busy, if_true, if_neg hold]
  omega

/-- The last `EXPIRE` ends the run. -/
theorem runLeft_runEnds {s : State} (busy : s.busy = true) : runLeft { s with busy := false } < runLeft s := by
  simp [runLeft, busy]

/-- Once the input has stopped, every step of a machine that is not at rest brings it nearer to rest. -/
theorem step_nearerRest {s t : State} (stopped : InputStopped s) (moving : ¬ atRest s) (h : step s = .next t) :
    NearerRest t s := by
  obtain ⟨⟨noReset, noPresenter⟩, noByte⟩ := stopped
  cases step_cases h with
  | reset asserted => exact absurd (noReset.symm.trans asserted) nofun
  | runEnds _ busy => exact nearerRest_of_runLeft rfl (runLeft_runEnds busy)
  | transition _ busy _ left => exact nearerRest_of_runLeft rfl (runLeft_adv busy left)
  | holdTick _ busy hold => exact nearerRest_of_runLeft rfl (runLeft_tick busy hold)
  | restTick _ idle nothing =>
    refine absurd ?_ moving
    rcases nothing with ⟨absent, noRequest⟩ | ⟨polls, noByte⟩
    · exact ⟨idle, noRequest, noByte absent, noReset, .inl absent⟩
    · exact ⟨idle, secondPresenter_eq_false_iff.mp noPresenter (by simp [polls]), noByte, noReset, .inr polls⟩
  | accept r rest _ _ _ _ presented effect =>
    have after := effect.pending_le
    refine nearerRest_of_pending (after.trans_lt ?_)
    simp only [pending, presented, List.length_cons]
    omega
  | boot _ _ booting => exact nearerRest_of_pending (by simp [pending, booting, FrontEnd.owed])
  | complete m f _ _ waits =>
    rw [completeStep_eq]
    exact nearerRest_of_pending (by simp [pending, waits, FrontEnd.owed])
  | ignoreCr rest _ _ _ unread => exact nearerRest_of_pending (by simp [pending, unread])
  | append b rest _ _ _ unread =>
    rw [appendByte_frame]
    exact nearerRest_of_pending (by simp [pending, unread])
  | emptyLine rest _ _ _ unread => exact nearerRest_of_pending (by simp [pending, unread])
  | command rest _ _ _ _ _ _ unread _ _ _ effect =>
    have after := effect.pending_le
    refine nearerRest_of_pending (after.trans_lt ?_)
    simp only [pending, unread, List.length_cons]
    omega

/-! ### The end -/

/-- Some number of steps ends at rest with an idle sequencer, or at an input the spec marks `refuse` (70 R123). -/
def ComesToRest (s : State) : Prop :=
  ∃ k, (∃ t, run k s = .next t ∧ atRest t ∧ t.remain = 0 ∧ t.hold = 0) ∨
    ∃ r, run k s = .refused r ∧ r ≠ .secondPresenter ∧ ∀ name, r ≠ .notModelled name

theorem comesToRest_of_atRest {s : State} (inv : Inv s) (rest : atRest s) : ComesToRest s :=
  ⟨0, .inl ⟨s, rfl, rest, inv.idle_clear rest.1⟩⟩

theorem comesToRest_of_step {s t : State} (h : step s = .next t) (ends : ComesToRest t) : ComesToRest s := by
  obtain ⟨k, ends⟩ := ends
  exact ⟨k + 1, by rwa [run_succ k h]⟩

theorem comesToRest_of_refused {s : State} (inv : Inv s) (quiet : undisturbed s) {r : Refusal}
    (h : step s = .refused r) : ComesToRest s := by
  refine ⟨1, .inr ⟨r, (run_one s).trans h, ?_, ?_⟩⟩
  · rintro rfl
    exact step_ne_secondPresenter quiet h
  · rintro name rfl
    exact (invStatesNeverFault s inv).2 name h

/-- By induction over what is left to do: every step but the last keeps the invariant and brings rest nearer. -/
theorem comesToRest {s : State} (inv : Inv s) (stopped : InputStopped s) : ComesToRest s := by
  induction s using nearerRest_wf.induction with
  | h s ih =>
    by_cases rest : atRest s
    · exact comesToRest_of_atRest inv rest
    · cases h : step s with
      | next t =>
        have consumed := step_consumes stopped.1.1 h
        exact comesToRest_of_step h
          (ih t (step_nearerRest stopped rest h) (stepKeepsInv s t inv h) (stopped.of_consumes consumed))
      | fault r => exact absurd h ((invStatesNeverFault s inv).1 r)
      | refused r => exact comesToRest_of_refused inv stopped.1 h

/-- Settles O28, from every state in which the input has stopped. -/
theorem machineComesToRest : Obligations.MachineComesToRest := fun _ inv quiet noByte =>
  comesToRest inv ⟨quiet, noByte⟩

end Sys2Proof.Machine
end
